-- ==== Sys2Proof/Word.lean ====
section
/-! DEFINITION. The word types of the Machine (00_scope.md R4, R5, R6; 30_encoding.md R61).
Every value of this hardware is unsigned. -/

namespace Sys2Proof

/-- A memory byte, a general register, a timer, an immediate `kk`. -/
abbrev Byte := BitVec 8

/-- An opcode, `I`, `PC`, a stack slot. -/
abbrev Word := BitVec 16

/-- A register index `x` or `y`, a sprite height `n`, `SP`. -/
abbrev Nibble := BitVec 4

/-- A 12-bit address field `nnn`. -/
abbrev Addr := BitVec 12

/-- `zext_16` of R6, for a byte or an address field. -/
def zext16 {w : Nat} (v : BitVec w) : Word := v.setWidth 16

end Sys2Proof
end

