-- ==== Sys2Proof/WellFormed.lean ====
section
/-! DEFINITION. Well-formed words (30_encoding.md R66). An `Instr` has no ill-formed term: its fields have
exactly the widths of R61 and every value of every field is legal (R62, R67). What can be ill-formed is a WORD,
and R66 lists the invalid words group by group. `validWord` is written from that list, not from the match and
mask table of R64 that the decoder follows; that the two agree is a statement. -/

namespace Sys2Proof

/-- The top nibble of an opcode, its group (R61). -/
def wordGroup (w : Word) : Nat := w.toNat / 4096

/-- The bottom nibble of an opcode (R61, `n`). -/
def wordLow (w : Word) : Nat := w.toNat % 16

/-- The bottom byte of an opcode (R61, `kk`). -/
def wordByte (w : Word) : Nat := w.toNat % 256

/-- Group 0 (R66): invalid unless the whole word is 0x00E0 or 0x00EE. -/
def validGroup0 (w : Word) : Bool := w == 0x00E0 || w == 0x00EE

/-- Groups 5 and 9 (R66): invalid when the low nibble is not 0. -/
def validGroup59 (w : Word) : Bool := wordLow w == 0

/-- Group 8 (R66): invalid when the low nibble is 8, 9, A, B, C, D or F. -/
def validGroup8 (w : Word) : Bool := !([0x8, 0x9, 0xA, 0xB, 0xC, 0xD, 0xF].contains (wordLow w))

/-- Group E (R66): invalid unless the low byte is 0x9E or 0xA1. -/
def validGroupE (w : Word) : Bool := [0x9E, 0xA1].contains (wordByte w)

/-- Group F (R66): invalid unless the low byte is one of the nine selectors. -/
def validGroupF (w : Word) : Bool :=
  [0x07, 0x0A, 0x15, 0x18, 0x1E, 0x29, 0x33, 0x55, 0x65].contains (wordByte w)

/-- A word is well formed when it is not one of the 21582 invalid words of R66. -/
def validWord (w : Word) : Bool :=
  match wordGroup w with
  | 0x0 => validGroup0 w
  | 0x5 => validGroup59 w
  | 0x8 => validGroup8 w
  | 0x9 => validGroup59 w
  | 0xE => validGroupE w
  | 0xF => validGroupF w
  | _ => true

end Sys2Proof
end

