-- ==== Sys2Proof/Decode.lean ====
section
/-! DEFINITION. The decoder and the encoder (30_encoding.md R60 to R67; spec/opcode_table.json). -/

namespace Sys2Proof

/-- What the decoder answers on a word. -/
inductive Decoded where
  /-- the word is this instruction -/
  | instr (i : Instr)
  /-- the word matches no row of R64 (R66) -/
  | invalidOpcode (w : Word)
  deriving DecidableEq, Repr

/-- What the decoder answers on bytes. -/
inductive DecodedBytes where
  /-- the first two bytes are a word, with this answer; the bytes after them -/
  | word (d : Decoded) (rest : List Byte)
  /-- fewer than two bytes: there is no word -/
  | truncated
  deriving DecidableEq, Repr

/-- The instruction, if the decoder gives one. -/
def DecodedBytes.toOption : DecodedBytes → Option Instr
  | .word (.instr i) _ => some i
  | .word (.invalidOpcode _) _ => none
  | .truncated => none

/-- `x = opcode[11:8]` (R61). -/
def fieldX (w : Word) : Nibble := w.extractLsb' 8 4

/-- `y = opcode[7:4]` (R61). -/
def fieldY (w : Word) : Nibble := w.extractLsb' 4 4

/-- `n = opcode[3:0]` (R61). -/
def fieldN (w : Word) : Nibble := w.extractLsb' 0 4

/-- `kk = opcode[7:0]` (R61). -/
def fieldKk (w : Word) : Byte := w.extractLsb' 0 8

/-- `nnn = opcode[11:0]` (R61). -/
def fieldNnn (w : Word) : Addr := w.extractLsb' 0 12

/-- A row of the opcode map (R64): a word `w` is the row's instruction when `w AND mask` is `pattern`. -/
structure Row where
  mask : Word
  pattern : Word
  make : Word → Instr

/-- The opcode map of R64, in its order. -/
def rows : List Row :=
  [⟨0xFFFF, 0x00E0, fun _ => .cls⟩,
   ⟨0xFFFF, 0x00EE, fun _ => .ret⟩,
   ⟨0xF000, 0x1000, fun w => .jp (fieldNnn w)⟩,
   ⟨0xF000, 0x2000, fun w => .call (fieldNnn w)⟩,
   ⟨0xF000, 0x3000, fun w => .seImm (fieldX w) (fieldKk w)⟩,
   ⟨0xF000, 0x4000, fun w => .sneImm (fieldX w) (fieldKk w)⟩,
   ⟨0xF00F, 0x5000, fun w => .seReg (fieldX w) (fieldY w)⟩,
   ⟨0xF000, 0x6000, fun w => .ldImm (fieldX w) (fieldKk w)⟩,
   ⟨0xF000, 0x7000, fun w => .addImm (fieldX w) (fieldKk w)⟩] ++
  [⟨0xF00F, 0x8000, fun w => .ldReg (fieldX w) (fieldY w)⟩,
   ⟨0xF00F, 0x8001, fun w => .orReg (fieldX w) (fieldY w)⟩,
   ⟨0xF00F, 0x8002, fun w => .andReg (fieldX w) (fieldY w)⟩,
   ⟨0xF00F, 0x8003, fun w => .xorReg (fieldX w) (fieldY w)⟩,
   ⟨0xF00F, 0x8004, fun w => .addReg (fieldX w) (fieldY w)⟩,
   ⟨0xF00F, 0x8005, fun w => .sub (fieldX w) (fieldY w)⟩,
   ⟨0xF00F, 0x8006, fun w => .shr (fieldX w) (fieldY w)⟩,
   ⟨0xF00F, 0x8007, fun w => .subn (fieldX w) (fieldY w)⟩,
   ⟨0xF00F, 0x800E, fun w => .shl (fieldX w) (fieldY w)⟩] ++
  [⟨0xF00F, 0x9000, fun w => .sneReg (fieldX w) (fieldY w)⟩,
   ⟨0xF000, 0xA000, fun w => .ldI (fieldNnn w)⟩,
   ⟨0xF000, 0xB000, fun w => .jpV0 (fieldNnn w)⟩,
   ⟨0xF000, 0xC000, fun w => .rnd (fieldX w) (fieldKk w)⟩,
   ⟨0xF000, 0xD000, fun w => .drw (fieldX w) (fieldY w) (fieldN w)⟩,
   ⟨0xF0FF, 0xE09E, fun w => .skp (fieldX w)⟩,
   ⟨0xF0FF, 0xE0A1, fun w => .sknp (fieldX w)⟩] ++
  [⟨0xF0FF, 0xF007, fun w => .ldVxDt (fieldX w)⟩,
   ⟨0xF0FF, 0xF00A, fun w => .ldVxK (fieldX w)⟩,
   ⟨0xF0FF, 0xF015, fun w => .ldDtVx (fieldX w)⟩,
   ⟨0xF0FF, 0xF018, fun w => .ldStVx (fieldX w)⟩,
   ⟨0xF0FF, 0xF01E, fun w => .addI (fieldX w)⟩,
   ⟨0xF0FF, 0xF029, fun w => .ldF (fieldX w)⟩,
   ⟨0xF0FF, 0xF033, fun w => .ldB (fieldX w)⟩,
   ⟨0xF0FF, 0xF055, fun w => .storeRegs (fieldX w)⟩,
   ⟨0xF0FF, 0xF065, fun w => .loadRegs (fieldX w)⟩]

/-- Whether the word is an instruction of the row (R64). -/
def Row.hits (r : Row) (w : Word) : Bool := (w &&& r.mask) == r.pattern

/-- `decode(opcode)` of R82: the instruction of the first (and only) row that the word hits (R64). -/
def decode (w : Word) : Decoded :=
  match rows.find? (fun r => r.hits w) with
  | some r => .instr (r.make w)
  | none => .invalidOpcode w

/-- The decoder over bytes as they lie in memory, high byte first (R60, R45). Total on any bytes. -/
def decodeBytes : List Byte → DecodedBytes
  | hi :: lo :: rest => .word (decode (hi ++ lo)) rest
  | _ => .truncated

/-- The word of an instruction, its nibbles as the rows of spec/opcode_table.json spell them ("encoding"). -/
def encode : Instr → Word
  | .cls => 0x00E0
  | .ret => 0x00EE
  | .jp nnn => 0x1#4 ++ nnn
  | .call nnn => 0x2#4 ++ nnn
  | .seImm x kk => 0x3#4 ++ x ++ kk
  | .sneImm x kk => 0x4#4 ++ x ++ kk
  | .seReg x y => 0x5#4 ++ x ++ y ++ 0x0#4
  | .ldImm x kk => 0x6#4 ++ x ++ kk
  | .addImm x kk => 0x7#4 ++ x ++ kk
  | .ldReg x y => 0x8#4 ++ x ++ y ++ 0x0#4
  | .orReg x y => 0x8#4 ++ x ++ y ++ 0x1#4
  | .andReg x y => 0x8#4 ++ x ++ y ++ 0x2#4
  | .xorReg x y => 0x8#4 ++ x ++ y ++ 0x3#4
  | .addReg x y => 0x8#4 ++ x ++ y ++ 0x4#4
  | .sub x y => 0x8#4 ++ x ++ y ++ 0x5#4
  | .shr x y => 0x8#4 ++ x ++ y ++ 0x6#4
  | .subn x y => 0x8#4 ++ x ++ y ++ 0x7#4
  | .shl x y => 0x8#4 ++ x ++ y ++ 0xE#4
  | .sneReg x y => 0x9#4 ++ x ++ y ++ 0x0#4
  | .ldI nnn => 0xA#4 ++ nnn
  | .jpV0 nnn => 0xB#4 ++ nnn
  | .rnd x kk => 0xC#4 ++ x ++ kk
  | .drw x y n => 0xD#4 ++ x ++ y ++ n
  | .skp x => 0xE#4 ++ x ++ 0x9E#8
  | .sknp x => 0xE#4 ++ x ++ 0xA1#8
  | .ldVxDt x => 0xF#4 ++ x ++ 0x07#8
  | .ldVxK x => 0xF#4 ++ x ++ 0x0A#8
  | .ldDtVx x => 0xF#4 ++ x ++ 0x15#8
  | .ldStVx x => 0xF#4 ++ x ++ 0x18#8
  | .addI x => 0xF#4 ++ x ++ 0x1E#8
  | .ldF x => 0xF#4 ++ x ++ 0x29#8
  | .ldB x => 0xF#4 ++ x ++ 0x33#8
  | .storeRegs x => 0xF#4 ++ x ++ 0x55#8
  | .loadRegs x => 0xF#4 ++ x ++ 0x65#8

/-- The two bytes of an instruction's word as memory holds them, high byte first (R45, R60). -/
def wordBytes (w : Word) : List Byte := [w.extractLsb' 8 8, w.extractLsb' 0 8]

/-- The instruction word whose bits are `w`, as spec/opcode_table.json numbers them; the bits above `nbits` are 0. -/
def tableWord (nbits w : Nat) : Word := BitVec.ofNat 16 (w % 2 ^ nbits)

/-- What the decoder reads from an instruction whose bits are `w`, laid out in bytes as memory holds it. -/
def decodeTableWord (nbits w : Nat) : Option Instr := (decodeBytes (wordBytes (tableWord nbits w))).toOption

end Sys2Proof
end

