-- ==== Sys2Proof/Config.lean ====
section
/-! DEFINITION. The fixed parameters of the Machine (00_scope.md R4), and the values its spec leaves open,
as constants without a body. -/

namespace Sys2Proof.Config

/-- `MEM_SIZE` (R4): addresses 0x000 to 0xFFF. -/
abbrev memSize : Nat := 4096

/-- `PROG_BASE` (R4): where a program is loaded, and `PC` after reset. -/
abbrev progBase : Nat := 0x200

/-- `PROG_CAP` (R4): the largest program, in bytes. -/
abbrev progCap : Nat := 3584

/-- `GLYPH_BYTES` (R4). -/
abbrev glyphBytes : Nat := 5

/-- `FONT[0..79]` (R13), glyph after glyph. PRESUMED, log 1: the spec makes the 80 bytes a parameter and gives
this table as the default, from general knowledge. -/
def font : List Byte :=
  [0xF0, 0x90, 0x90, 0x90, 0xF0,  0x20, 0x60, 0x20, 0x20, 0x70,
   0xF0, 0x10, 0xF0, 0x80, 0xF0,  0xF0, 0x10, 0xF0, 0x10, 0xF0] ++
  [0x90, 0x90, 0xF0, 0x10, 0x10,  0xF0, 0x80, 0xF0, 0x10, 0xF0,
   0xF0, 0x80, 0xF0, 0x90, 0xF0,  0xF0, 0x10, 0x20, 0x40, 0x40] ++
  [0xF0, 0x90, 0xF0, 0x90, 0xF0,  0xF0, 0x90, 0xF0, 0x10, 0xF0,
   0xF0, 0x90, 0xF0, 0x90, 0x90,  0xE0, 0x90, 0xE0, 0x90, 0xE0] ++
  [0xF0, 0x80, 0x80, 0x80, 0xF0,  0xE0, 0x90, 0x90, 0x90, 0xE0,
   0xF0, 0x80, 0xF0, 0x80, 0xF0,  0xF0, 0x80, 0xF0, 0x80, 0x80]

/-- `GATE_AT_RESET` (R4, R31; D8): `gate_open` after power-on and after `reset()`. The spec leaves it OPEN, so
nothing constrains it. DESIGN CHOICE, log 2. -/
opaque gateAtReset : Bool

/-- The random byte drawn for the k-th executed step (R81, R194): under no law. DESIGN CHOICE, log 3. -/
opaque rnd : Nat → Byte

end Sys2Proof.Config
end

