-- ==== Sys2Proof/Machine/State.lean ====
section
/-! DEFINITION. The state of the Machine (10_state.md), as plain data, and its value after power-on.

The first twelve fields are the spec's state, all of it (R32). `draws`, `schedule` and `out` are the model's own:
the index of this step's random byte, the driver's coming moves, and the outputs the Machine hands to its driver. -/

namespace Sys2Proof.Machine

/-- The report kinds (60_exceptions.md R170), each with the value it records. -/
inductive Report where
  /-- the fetched word matches no row of R64 (R86, R171) -/
  | invalidOpcode (opcode : Word)
  /-- CALL with SP = 15 (R102, R172) -/
  | stackOverflow
  /-- RET with SP = 0 (R101, R172) -/
  | stackUnderflow
  /-- loadProgram with more than 3584 bytes (R174, R196); never raised by a step -/
  | capacityError
  /-- PC above 0xFFE at fetch (R83) -/
  | fetchBounds
  /-- a data address above 0xFFF; records I (R44) -/
  | memoryBounds (index : Word)
  /-- a key index above 15; records V[x] (R114, R115) -/
  | keyIndexRange (value : Byte)
  deriving DecidableEq, Repr

/-- What `step` returns to its caller (40_step_cycle.md R89). -/
inductive StepResult where
  /-- the gate was closed (R84) -/
  | gated
  /-- an executed step: the word fetched (none when there was none), the report, the beep -/
  | executed (opcode : Option Word) (report : Option Report) (beep : Bool)
  deriving DecidableEq, Repr

/-- The driver's moves between two steps (60_exceptions.md R197), other than calling `step`. -/
inductive HostOp where
  /-- the 60 Hz tick event (R80) -/
  | tick
  /-- `setKey(index, pressed)` (R195) -/
  | setKey (index : Nat) (pressed : Bool)
  /-- `loadProgram(bytes)` (R196) -/
  | loadProgram (bytes : List Byte)
  /-- `takeFramebuffer()` (R193) -/
  | takeFramebuffer
  /-- `reset()` (R211) -/
  | reset
  deriving DecidableEq, Repr

/-- The display: 32 rows of 64 pixels, `fb[row][col]` (R23). -/
abbrev Framebuffer := Vector (Vector Bool 64) 32

/-- Memory as (address, byte) pairs: addresses strictly rising, and no pair equal to what an unlisted address
reads as (`Memory.unlisted`, the power-on contents). -/
abbrev Memory := List Host.Cell

/-- The Machine's outputs, and the mark the spec asks a model to keep beside the Machine (log 4, log 5). No rule
reads them back: the Machine itself stores none of this (R89, R177). -/
structure Outputs where
  /-- the report raised in the instruction phase of the step under way, or of the last one (R85, R175) -/
  report : Option Report
  /-- what the last `step` returned (R89) -/
  result : Option StepResult
  /-- what the last `takeFramebuffer` returned: the grid, and `dirty` before (R193) -/
  frame : Option (Framebuffer × Bool)
  /-- what the last `loadProgram` returned: none for ok (R196) -/
  loadReport : Option Report
  /-- a step has reported, at some time; never cleared (R177, 93_implementation_defined.md section 2) -/
  everReported : Bool
  deriving DecidableEq, Repr

structure State where
  /-- `V[0..15]` (R10) -/
  v : Vector Byte 16
  /-- `I` (R18) -/
  i : Word
  /-- `PC` (R15) -/
  pc : Word
  /-- `stack[0..15]` (R21) -/
  stack : Vector Word 16
  /-- `SP` (R19) -/
  sp : Nibble
  /-- `DT` (R20) -/
  dt : Byte
  /-- `ST` (R20) -/
  st : Byte
  /-- `key[0..15]` (R22) -/
  keys : Vector Bool 16
  /-- `fb` (R23) -/
  fb : Framebuffer
  /-- `dirty` (R30) -/
  dirty : Bool
  /-- `gate_open` (R31) -/
  gateOpen : Bool
  /-- `mem` (R12) -/
  mem : Memory
  /-- the model's own: executed steps so far, the index of the next random byte (R81, log 3) -/
  draws : Nat
  /-- the model's own: the driver's moves before each of the coming steps, the nearest first (R197, log 6) -/
  schedule : List (List HostOp)
  /-- the model's own: the outputs -/
  out : Outputs
  deriving DecidableEq, Repr

/-- No step stops this Machine with a fault: every error it has is a report, after which it goes on (R86, R175,
R177, log 4). So there is no fault, and the type has no constructor. -/
inductive Fault
  deriving DecidableEq, Repr

/-- Why the model gives no next state. -/
inductive Refusal where
  /-- raised by exec's arm of an instruction that has no meaning yet; safe -/
  | notModelled (mnemonic : String)
  /-- raised by the driver's move `setKey` with an index above 15: "the operation has no defined meaning and a
  model refuses it" (R195, log 22); safe. No instruction raises it. -/
  | setKeyIndex (index : Nat)
  deriving DecidableEq, Repr

/-- The outputs before anything has happened. DESIGN CHOICE, log 4 and 5: the spec gives these no reset value. -/
def Outputs.initial : Outputs :=
  { report := none, result := none, frame := none, loadReport := none, everReported := false }

/-- The blank display. -/
def Framebuffer.blank : Framebuffer := Vector.replicate 32 (Vector.replicate 64 false)

/-- The Machine after power-on (R33, R210, log 8). `gateOpen` is the spec's open parameter (log 2); nothing is
listed in memory, which then reads as the font and zeros (log 1, log 23); the model's own fields are DESIGN
CHOICE (log 3 to 6). -/
def State.reset : State where
  v := Vector.replicate 16 0
  i := 0
  pc := 0x200
  stack := Vector.replicate 16 0
  sp := 0
  dt := 0
  st := 0
  keys := Vector.replicate 16 false
  fb := Framebuffer.blank
  dirty := false
  gateOpen := Config.gateAtReset
  mem := []
  draws := 0
  schedule := []
  out := Outputs.initial

end Sys2Proof.Machine
end

