-- ==== Sys2Proof/Machine/Memory.lean ====
section
/-! DEFINITION. Memory as a list in one canonical form (10_state.md R12, R13; 20_memory.md R40, R48), and the one
place where bytes are read and written. -/

namespace Sys2Proof.Machine

/-- What an address reads as that the list does not name: the power-on contents (R12, R33): the font at 0x000 to
0x04F, 0 elsewhere. -/
def Memory.unlisted (a : Nat) : Byte := Config.font.getD a 0

/-- The byte at an address. -/
def Memory.read (m : Memory) (a : Nat) : Byte :=
  match m.find? (fun c => c.1 == a) with
  | some c => c.2
  | none => Memory.unlisted a

/-- The list without an address. -/
def Memory.erase (m : Memory) (a : Nat) : Memory := m.filter (fun c => c.1 != a)

/-- A pair put before the first pair of a higher address. -/
def Memory.insert (a : Nat) (b : Byte) : Memory → Memory
  | [] => [(a, b)]
  | c :: m => if a < c.1 then (a, b) :: c :: m else c :: Memory.insert a b m

/-- One byte written: a byte equal to what the unlisted address reads as is not listed. -/
def Memory.write (m : Memory) (a : Nat) (b : Byte) : Memory :=
  if b = Memory.unlisted a then m.erase a else Memory.insert a b (m.erase a)

/-- Bytes written at ascending addresses from `a` on (R46). -/
def Memory.writeBytes (m : Memory) (a : Nat) : List Byte → Memory
  | [] => m
  | b :: bs => Memory.writeBytes (m.write a b) (a + 1) bs

/-- The canonical form: addresses strictly rising and inside the address space, no pair that says what the
unlisted address reads as. -/
def Memory.wf (m : Memory) : Bool :=
  decide (m.Pairwise (fun c d => c.1 < d.1)) &&
    m.all (fun c => decide (c.1 < Config.memSize) && decide (c.2 ≠ Memory.unlisted c.1))

/-- Whether the `n` bytes from `a` on all exist (R44); no byte needs no check (R154). -/
def blockInBounds (a n : Nat) : Bool := n == 0 || decide (a + n ≤ Config.memSize)

end Sys2Proof.Machine
end

