-- ==== Sys2Proof/Machine/Ops.lean ====
section
/-! DEFINITION. The named operations over the state: registers, memory blocks, the display, and raising a report
(00_scope.md R6). Every meaning reads and writes the state through these. -/

namespace Sys2Proof.Machine

/-- `V[x]` (R6, R10). -/
def State.reg (s : State) (x : Nibble) : Byte := s.v[x.toNat]'x.isLt

/-- `V[x] <- b`. -/
def State.setReg (s : State) (x : Nibble) (b : Byte) : State := { s with v := s.v.set x.toNat b x.isLt }

/-- `V[0..] <- bytes`: register k takes the k-th byte; the registers beyond the bytes keep their values (R145). -/
def State.setRegs (s : State) (bytes : List Byte) : State :=
  { s with v := Vector.ofFn fun k => (bytes[k]?).getD s.v[k] }

/-- `V0` to `Vx`, in order (R62, R144). -/
def State.regsUpTo (s : State) (x : Nibble) : List Byte := s.v.toList.take (x.toNat + 1)

/-- `I <- w`. -/
def State.setI (s : State) (w : Word) : State := { s with i := w }

/-- `PC <- w`. -/
def State.setPc (s : State) (w : Word) : State := { s with pc := w }

/-- `SP <- n`. -/
def State.setSp (s : State) (n : Nibble) : State := { s with sp := n }

/-- `stack[k]`. -/
def State.slot (s : State) (k : Nibble) : Word := s.stack[k.toNat]'k.isLt

/-- `stack[k] <- w`. -/
def State.setSlot (s : State) (k : Nibble) (w : Word) : State := { s with stack := s.stack.set k.toNat w k.isLt }

/-- `DT <- b`. -/
def State.setDt (s : State) (b : Byte) : State := { s with dt := b }

/-- `ST <- b`. -/
def State.setSt (s : State) (b : Byte) : State := { s with st := b }

/-- `key[k]`. -/
def State.key (s : State) (k : Nibble) : Bool := s.keys[k.toNat]'k.isLt

/-- `key[k] <- pressed`. -/
def State.setKey (s : State) (k : Nibble) (pressed : Bool) : State :=
  { s with keys := s.keys.set k.toNat pressed k.isLt }

/-- `fb[row][col]`. -/
def State.pixel (s : State) (row : Fin 32) (col : Fin 64) : Bool := s.fb[row][col]

/-- `fb <- f`. -/
def State.setFb (s : State) (f : Framebuffer) : State := { s with fb := f }

/-- `dirty <- b`. -/
def State.setDirty (s : State) (b : Bool) : State := { s with dirty := b }

/-- `gate_open <- b`. -/
def State.setGate (s : State) (b : Bool) : State := { s with gateOpen := b }

/-- `mem <- m`. -/
def State.setMem (s : State) (m : Memory) : State := { s with mem := m }

/-- The model's own fields. -/
def State.setDraws (s : State) (n : Nat) : State := { s with draws := n }

/-- The driver's coming moves. -/
def State.setSchedule (s : State) (l : List (List HostOp)) : State := { s with schedule := l }

/-- The outputs. -/
def State.setOut (s : State) (o : Outputs) : State := { s with out := o }

/-- `mem[a]`. -/
def State.byte (s : State) (a : Nat) : Byte := s.mem.read a

/-- `MemRead` of the `n` bytes from `a` on, in ascending order; none if one of them does not exist, found before
the first is read (R6, R44). Addresses are integers and never wrap. -/
def State.readBlock (s : State) (a n : Nat) : Option (List Byte) :=
  if blockInBounds a n then some ((List.range n).map fun k => s.byte (a + k)) else none

/-- `MemWrite` of bytes from `a` on, in ascending order; none if one of the addresses does not exist, found
before the first is written (R6, R44). -/
def State.writeBlock (s : State) (a : Nat) (bytes : List Byte) : Option State :=
  if blockInBounds a bytes.length then some (s.setMem (s.mem.writeBytes a bytes)) else none

/-- `PC <- pc + 2`, the sequential advance (R15). -/
def State.advance (s : State) : State := s.setPc (s.pc + 2)

/-- `PC <- pc + 4` when the condition holds, else `PC <- pc + 2` (42_skip.md). -/
def State.skipIf (s : State) (cond : Bool) : State := if cond then s.setPc (s.pc + 4) else s.advance

/-- `raise` (R6, R85, R175), the one way an error is taken: nothing of the Machine changes, `PC` included; the
kind is handed to the step's result, and the mark beside the Machine is set for good (R177). There is no handler,
no saved register, no mode (R175), and no return from it (R177). -/
def State.raise (s : State) (r : Report) : State :=
  s.setOut { s.out with report := some r, everReported := true }

/-- An instruction whose effect is the state `s`. -/
def done (s : State) : Host.Outcome State Fault Refusal := .next s

/-- An instruction that raises a report: it has no other effect (R85). -/
def raised (s : State) (r : Report) : Host.Outcome State Fault Refusal := .next (s.raise r)

end Sys2Proof.Machine
end

