-- ==== Sys2Proof/Machine/HostOps.lean ====
section
/-! DEFINITION. The driver's moves between steps (60_exceptions.md R193 to R197, 70_reset_and_hazards.md R211,
40_step_cycle.md R80), and when they happen (log 6). -/

namespace Sys2Proof.Machine

/-- The tick event (R80): it opens the gate. -/
def hostTick (s : State) : State := s.setGate true

/-- `loadProgram(bytes)` (R196): too long a payload changes no byte and is answered CapacityError. -/
def hostLoadProgram (bytes : List Byte) (s : State) : State :=
  if bytes.length > Config.progCap then s.setOut { s.out with loadReport := some .capacityError }
  else (s.setMem (s.mem.writeBytes Config.progBase bytes)).setOut { s.out with loadReport := none }

/-- `takeFramebuffer()` (R193): the grid and the old `dirty` are handed out, and `dirty` is cleared. -/
def hostTakeFramebuffer (s : State) : State :=
  (s.setDirty false).setOut { s.out with frame := some (s.fb, s.dirty) }

/-- `reset()` (R211): all of the spec's state but `mem`. The model's own fields are no state of the Machine and
stay (log 26). -/
def hostReset (s : State) : State :=
  { s with
    pc := 0x200, sp := 0, i := 0, dt := 0, st := 0
    v := Vector.replicate 16 0
    keys := Vector.replicate 16 false
    stack := Vector.replicate 16 0
    fb := Framebuffer.blank
    dirty := true
    gateOpen := Config.gateAtReset }

/-- One move of the driver (R197). `setKey` with an index above 15 has no meaning and is refused (R195, log 22). -/
def hostOp (op : HostOp) (s : State) : Host.Outcome State Fault Refusal :=
  match op with
  | .tick => .next (hostTick s)
  | .setKey k pressed => if k ≤ 15 then .next (s.setKey (BitVec.ofNat 4 k) pressed) else .refused (.setKeyIndex k)
  | .loadProgram bytes => .next (hostLoadProgram bytes s)
  | .takeFramebuffer => .next (hostTakeFramebuffer s)
  | .reset => .next (hostReset s)

/-- Moves one after another. -/
def hostOps : List HostOp → State → Host.Outcome State Fault Refusal
  | [], s => .next s
  | op :: ops, s =>
    match hostOp op s with
    | .next t => hostOps ops t
    | .fault r => .fault r
    | .refused r => .refused r

/-- The moves the driver makes before the coming step: the first entry of the schedule; one tick when the schedule
has run out (the convention of 95_test_vectors.md; DESIGN CHOICE, log 6). -/
def dueMoves (s : State) : List HostOp :=
  match s.schedule with
  | [] => [.tick]
  | ops :: _ => ops

/-- The driver's turn before a step. -/
def driverTurn (s : State) : Host.Outcome State Fault Refusal :=
  hostOps (dueMoves s) (s.setSchedule s.schedule.tail)

end Sys2Proof.Machine
end

