-- ==== Sys2Proof/Machine/Cycle.lean ====
section
/-! DEFINITION. The step cycle (40_step_cycle.md R82): gate, fetch, execute, timer phase, beep, result. The
instruction phase is a parameter here (`run`); Machine/Step.lean gives it exec. -/

namespace Sys2Proof.Machine

/-- A gated step (R84): nothing changes; the result says so. -/
def gatedStep (s : State) : State := s.setOut { s.out with result := some .gated }

/-- The start of an executed step: the gate closes (R82), and no report is raised yet. -/
def beginStep (s : State) : State := (s.setGate false).setOut { s.out with report := none }

/-- The fetch (R83): `mem[PC] || mem[PC+1]`; none when the two bytes are not both in memory. -/
def fetch (s : State) : Option Word :=
  match s.readBlock s.pc.toNat 2 with
  | some [hi, lo] => some (hi ++ lo)
  | _ => none

/-- A timer counts down by one, floored at 0 (R87). -/
def countDown (b : Byte) : Byte := if b = 0 then 0 else b - 1

/-- The timer phase (R87). -/
def timerPhase (s : State) : State := (s.setDt (countDown s.dt)).setSt (countDown s.st)

/-- The end of an executed step: the timer phase, the beep (R88), the result (R89), and the random byte of this
step is used up (R81, log 3). -/
def endStep (opcode : Option Word) (s : State) : State :=
  let t := timerPhase s
  (t.setOut { t.out with result := some (.executed opcode t.out.report (t.st != 0)) }).setDraws (t.draws + 1)

/-- The end of an executed step, after its instruction phase. -/
def finish (opcode : Option Word) : Host.Outcome State Fault Refusal → Host.Outcome State Fault Refusal
  | .next s => .next (endStep opcode s)
  | .fault r => .fault r
  | .refused r => .refused r

/-- The instruction phase and the end of an executed step (R82, R83, R86). -/
def executedStep (run : Instr → State → Host.Outcome State Fault Refusal) (s : State) :
    Host.Outcome State Fault Refusal :=
  match fetch s with
  | none => finish none (raised s .fetchBounds)
  | some w =>
    match decode w with
    | .instr i => finish (some w) (run i s)
    | .invalidOpcode w' => finish (some w) (raised s (.invalidOpcode w'))

/-- `step()` of R82. -/
def machineStep (run : Instr → State → Host.Outcome State Fault Refusal) (s : State) :
    Host.Outcome State Fault Refusal :=
  if s.gateOpen then executedStep run (beginStep s) else .next (gatedStep s)

/-- The driver's turn, and then its call of `step()` (R197, log 6). -/
def cycle (run : Instr → State → Host.Outcome State Fault Refusal) (s : State) :
    Host.Outcome State Fault Refusal :=
  match driverTurn s with
  | .next t => machineStep run t
  | .fault r => .fault r
  | .refused r => .refused r

/-- Where `withFetchWord` lays an instruction: at `PC`, or at 0x200 when no instruction can be fetched at `PC`. -/
def fetchAddress (s : State) : Word := if s.pc.toNat ≤ 0xFFE then s.pc else 0x200

/-- The state in which the very next step runs the instruction whose bytes are given (log 7): the bytes stand at
`PC`, and the driver has no move pending, so its turn is one tick, which opens the gate. -/
def placeInstruction (s : State) (bytes : List Byte) : State :=
  ((s.setPc (fetchAddress s)).setMem (s.mem.writeBytes (fetchAddress s).toNat bytes)).setSchedule []

end Sys2Proof.Machine
end

