-- ==== Sys2Proof/Machine/Operands.lean ====
section
/-! DEFINITION. The operand forms (30_encoding.md R62; 44_index_memory.md): a register, an 8-bit immediate, a
12-bit address, the address `V0 + nnn`, the base `I` with a small ascending offset, and the key a register
names. -/

namespace Sys2Proof.Machine

/-- The index of `VF` (R14). -/
def vf : Nibble := 0xF

/-- `zext_16(nnn)`: an address field as a target or an index (R62). -/
def addrOperand (nnn : Addr) : Word := zext16 nnn

/-- `trunc_16(zext_16(nnn) + zext_16(V[0]))`, the target of `Bnnn` (R103): always register 0, never masked. -/
def indexedTarget (s : State) (nnn : Addr) : Word := zext16 nnn + zext16 (s.reg 0)

/-- The integer address `I` of a block access (R6, R44). -/
def indexBase (s : State) : Nat := s.i.toNat

/-- How many registers `Fx55` and `Fx65` move (R62): `x + 1`. -/
def regCount (x : Nibble) : Nat := x.toNat + 1

/-- `trunc_16(I + x + 1)` (R144, R145). -/
def indexAfterBlock (s : State) (x : Nibble) : Word := s.i + BitVec.ofNat 16 (regCount x)

/-- The key that `V[x]` names, if there is one: none when `V[x] > 15` (R114, R115). It is not masked. -/
def keyOperand (s : State) (x : Nibble) : Option Nibble :=
  if (s.reg x).toNat ≤ 15 then some (BitVec.ofNat 4 (s.reg x).toNat) else none

/-- The least pressed key, if any (R161). -/
def leastKey (s : State) : Option Nibble :=
  ((List.range 16).map (BitVec.ofNat 4)).find? (fun k => s.key k)

/-- The decimal digits of a byte: hundreds, tens, units (R143; the tens as 90_conflicts.md C8 corrects them). -/
def decimalDigits (b : Byte) : List Byte :=
  [BitVec.ofNat 8 (b.toNat / 100), BitVec.ofNat 8 (b.toNat / 10 % 10), BitVec.ofNat 8 (b.toNat % 10)]

/-- `zext_16(V[x]) * 5`, the address of glyph `V[x]`; not masked (R142). -/
def glyphAddress (b : Byte) : Word := BitVec.ofNat 16 (b.toNat * Config.glyphBytes)

end Sys2Proof.Machine
end

