-- ==== Sys2Proof/Machine/Flags.lean ====
section
/-! DEFINITION. The flag computations (10_state.md R14) and the one operation that writes a result and then the
flag (43_alu.md R121). A flag is the byte 0 or 1. -/

namespace Sys2Proof.Machine

/-- 1 for true, 0 for false. -/
def flagByte (b : Bool) : Byte := if b then 1 else 0

/-- Carry out of `V[x] + V[y]` (R128): the sum exceeds 255. -/
def carryFlag (a b : Byte) : Byte := flagByte (decide (a.toNat + b.toNat > 255))

/-- The flag of SUB and SUBN (R129, R131; 90_conflicts.md C1): the left operand is strictly greater. -/
def greaterFlag (a b : Byte) : Byte := flagByte (decide (a.toNat > b.toNat))

/-- Bit 0, which SHR shifts out (R130). -/
def lowBitFlag (a : Byte) : Byte := flagByte (a.getLsbD 0)

/-- Bit 7, which SHL shifts out (R132). -/
def highBitFlag (a : Byte) : Byte := flagByte (a.getLsbD 7)

/-- `V[x] <- result`, then `VF <- flag`: with x = F the flag wins (R121). -/
def State.setRegFlag (s : State) (x : Nibble) (result flag : Byte) : State := (s.setReg x result).setReg vf flag

end Sys2Proof.Machine
end

