-- ==== Sys2Proof/Machine/Alu.lean ====
section
/-! DEFINITION. Register load and ALU (43_alu.md). Each ends with `PC <- pc + 2` and raises no report. -/

namespace Sys2Proof.Machine

/-- `V[x] <- result`, `PC <- pc + 2`; no flag (R14). -/
def writeReg (x : Nibble) (result : Byte) (s : State) : Host.Outcome State Fault Refusal :=
  done (s.setReg x result).advance

/-- `V[x] <- result`, then `VF <- flag`, `PC <- pc + 2` (R121). -/
def writeRegFlag (x : Nibble) (result flag : Byte) (s : State) : Host.Outcome State Fault Refusal :=
  done (s.setRegFlag x result flag).advance

/-- LD Vx, kk (R122). -/
def execLdImm (x : Nibble) (kk : Byte) (s : State) : Host.Outcome State Fault Refusal := writeReg x kk s

/-- ADD Vx, kk (R123). -/
def execAddImm (x : Nibble) (kk : Byte) (s : State) : Host.Outcome State Fault Refusal :=
  writeReg x (s.reg x + kk) s

/-- LD Vx, Vy (R124). -/
def execLdReg (x y : Nibble) (s : State) : Host.Outcome State Fault Refusal := writeReg x (s.reg y) s

/-- OR Vx, Vy (R125). -/
def execOrReg (x y : Nibble) (s : State) : Host.Outcome State Fault Refusal := writeReg x (s.reg x ||| s.reg y) s

/-- AND Vx, Vy (R126). -/
def execAndReg (x y : Nibble) (s : State) : Host.Outcome State Fault Refusal := writeReg x (s.reg x &&& s.reg y) s

/-- XOR Vx, Vy (R127). -/
def execXorReg (x y : Nibble) (s : State) : Host.Outcome State Fault Refusal := writeReg x (s.reg x ^^^ s.reg y) s

/-- ADD Vx, Vy (R128). -/
def execAddReg (x y : Nibble) (s : State) : Host.Outcome State Fault Refusal :=
  writeRegFlag x (s.reg x + s.reg y) (carryFlag (s.reg x) (s.reg y)) s

/-- SUB Vx, Vy (R129). -/
def execSub (x y : Nibble) (s : State) : Host.Outcome State Fault Refusal :=
  writeRegFlag x (s.reg x - s.reg y) (greaterFlag (s.reg x) (s.reg y)) s

/-- SHR Vx (R130); `y` is ignored (R67). -/
def execShr (x _y : Nibble) (s : State) : Host.Outcome State Fault Refusal :=
  writeRegFlag x (s.reg x >>> 1) (lowBitFlag (s.reg x)) s

/-- SUBN Vx, Vy (R131). -/
def execSubn (x y : Nibble) (s : State) : Host.Outcome State Fault Refusal :=
  writeRegFlag x (s.reg y - s.reg x) (greaterFlag (s.reg y) (s.reg x)) s

/-- SHL Vx (R132); `y` is ignored (R67). -/
def execShl (x _y : Nibble) (s : State) : Host.Outcome State Fault Refusal :=
  writeRegFlag x (s.reg x <<< 1) (highBitFlag (s.reg x)) s

/-- The byte drawn for the executed step under way (R81, log 3). -/
def randomByte (s : State) : Byte := Config.rnd s.draws

/-- RND Vx, kk (R133). -/
def execRnd (x : Nibble) (kk : Byte) (s : State) : Host.Outcome State Fault Refusal :=
  writeReg x (randomByte s &&& kk) s

end Sys2Proof.Machine
end

