-- ==== Sys2Proof/Machine/Display.lean ====
section
/-! DEFINITION. Display: CLS and the XOR sprite blitter (45_display.md). -/

namespace Sys2Proof.Machine

/-- The column `(vx + c) mod 64` (R153, EDGE_POLICY = Wrap, log 9). -/
def wrapCol (vx : Byte) (c : Nat) : Fin 64 := Fin.ofNat 64 (vx.toNat + c)

/-- The row `(vy + r) mod 32` (R153). -/
def wrapRow (vy : Byte) (r : Nat) : Fin 32 := Fin.ofNat 32 (vy.toNat + r)

/-- The pixels that one sprite byte sets, left first: bit 7 is column offset 0 (R151; R46, log 17). -/
def rowPixels (vx : Byte) (row : Fin 32) (b : Byte) : List (Fin 32 × Fin 64) :=
  ((List.range 8).filter fun c => b.getLsbD (7 - c)).map fun c => (row, wrapCol vx c)

/-- The pixels that a sprite sets, top row first; `r` is the row offset of the first byte (R151). -/
def spritePixels (vx vy : Byte) (r : Nat) : List Byte → List (Fin 32 × Fin 64)
  | [] => []
  | b :: bs => rowPixels vx (wrapRow vy r) b ++ spritePixels vx vy (r + 1) bs

/-- `fb[row][col] <- fb[row][col] XOR 1`, and whether the pixel was 1 before (R151). -/
def togglePixel (d : Framebuffer × Bool) (p : Fin 32 × Fin 64) : Framebuffer × Bool :=
  (d.1.set p.1 (d.1[p.1].set p.2 (!d.1[p.1][p.2])), d.2 || d.1[p.1][p.2])

/-- The blit (R151): the display after it, and whether any pixel collided (sticky, R152). -/
def blit (fb : Framebuffer) (pixels : List (Fin 32 × Fin 64)) : Framebuffer × Bool :=
  pixels.foldl togglePixel (fb, false)

/-- CLS (R150). -/
def execCls (s : State) : Host.Outcome State Fault Refusal :=
  done ((s.setFb Framebuffer.blank).setDirty true).advance

/-- DRW Vx, Vy, n (R151 to R154). The coordinates are read before `VF` is written. -/
def execDrw (x y n : Nibble) (s : State) : Host.Outcome State Fault Refusal :=
  match s.readBlock (indexBase s) n.toNat with
  | none => raised s (.memoryBounds s.i)
  | some bytes =>
    let drawn := blit s.fb (spritePixels (s.reg x) (s.reg y) 0 bytes)
    done (((s.setFb drawn.1).setReg vf (flagByte drawn.2)).setDirty true).advance

end Sys2Proof.Machine
end

