-- ==== Sys2Proof/Machine/Flow.lean ====
section
/-! DEFINITION. Control transfer (41_flow.md). -/

namespace Sys2Proof.Machine

/-- RET (R101). -/
def execRet (s : State) : Host.Outcome State Fault Refusal :=
  if s.sp = 0 then raised s .stackUnderflow else done ((s.setPc (s.slot s.sp)).setSp (s.sp - 1))

/-- JP nnn (R100). -/
def execJp (nnn : Addr) (s : State) : Host.Outcome State Fault Refusal := done (s.setPc (addrOperand nnn))

/-- CALL nnn (R102): the new `SP` indexes the slot, which takes `pc + 2`. -/
def execCall (nnn : Addr) (s : State) : Host.Outcome State Fault Refusal :=
  if s.sp = 15 then raised s .stackOverflow
  else done (((s.setSp (s.sp + 1)).setSlot (s.sp + 1) (s.pc + 2)).setPc (addrOperand nnn))

/-- JP V0, nnn (R103). -/
def execJpV0 (nnn : Addr) (s : State) : Host.Outcome State Fault Refusal := done (s.setPc (indexedTarget s nnn))

end Sys2Proof.Machine
end

