-- ==== Sys2Proof/Machine/IndexMemory.lean ====
section
/-! DEFINITION. Index register and memory (44_index_memory.md). -/

namespace Sys2Proof.Machine

/-- LD I, nnn (R140). -/
def execLdI (nnn : Addr) (s : State) : Host.Outcome State Fault Refusal := done (s.setI (addrOperand nnn)).advance

/-- ADD I, Vx (R141): wraps at 16 bits only, no flag. -/
def execAddI (x : Nibble) (s : State) : Host.Outcome State Fault Refusal :=
  done (s.setI (s.i + zext16 (s.reg x))).advance

/-- LD F, Vx (R142). -/
def execLdF (x : Nibble) (s : State) : Host.Outcome State Fault Refusal :=
  done (s.setI (glyphAddress (s.reg x))).advance

/-- LD B, Vx (R143). -/
def execLdB (x : Nibble) (s : State) : Host.Outcome State Fault Refusal :=
  match s.writeBlock (indexBase s) (decimalDigits (s.reg x)) with
  | none => raised s (.memoryBounds s.i)
  | some t => done t.advance

/-- LD [I], Vx (R144). -/
def execStoreRegs (x : Nibble) (s : State) : Host.Outcome State Fault Refusal :=
  match s.writeBlock (indexBase s) (s.regsUpTo x) with
  | none => raised s (.memoryBounds s.i)
  | some t => done (t.setI (indexAfterBlock s x)).advance

/-- LD Vx, [I] (R145). -/
def execLoadRegs (x : Nibble) (s : State) : Host.Outcome State Fault Refusal :=
  match s.readBlock (indexBase s) (regCount x) with
  | none => raised s (.memoryBounds s.i)
  | some bytes => done ((s.setRegs bytes).setI (indexAfterBlock s x)).advance

end Sys2Proof.Machine
end

