-- ==== Sys2Proof/Machine/Skip.lean ====
section
/-! DEFINITION. Conditional skips (42_skip.md). -/

namespace Sys2Proof.Machine

/-- SE Vx, kk (R110). -/
def execSeImm (x : Nibble) (kk : Byte) (s : State) : Host.Outcome State Fault Refusal :=
  done (s.skipIf (s.reg x == kk))

/-- SNE Vx, kk (R111). -/
def execSneImm (x : Nibble) (kk : Byte) (s : State) : Host.Outcome State Fault Refusal :=
  done (s.skipIf (s.reg x != kk))

/-- SE Vx, Vy (R112). -/
def execSeReg (x y : Nibble) (s : State) : Host.Outcome State Fault Refusal :=
  done (s.skipIf (s.reg x == s.reg y))

/-- SNE Vx, Vy (R113). -/
def execSneReg (x y : Nibble) (s : State) : Host.Outcome State Fault Refusal :=
  done (s.skipIf (s.reg x != s.reg y))

/-- A skip on the key that `V[x]` names being in the wanted position (R114, R115). -/
def skipOnKey (x : Nibble) (wanted : Bool) (s : State) : Host.Outcome State Fault Refusal :=
  match keyOperand s x with
  | none => raised s (.keyIndexRange (s.reg x))
  | some k => done (s.skipIf (s.key k == wanted))

/-- SKP Vx (R114). -/
def execSkp (x : Nibble) (s : State) : Host.Outcome State Fault Refusal := skipOnKey x true s

/-- SKNP Vx (R115). -/
def execSknp (x : Nibble) (s : State) : Host.Outcome State Fault Refusal := skipOnKey x false s

end Sys2Proof.Machine
end

