-- ==== Sys2Proof/Machine/TimersKeys.lean ====
section
/-! DEFINITION. Timer and keypad access (46_timers_keys.md). The timer phase of the same step comes after
(40_step_cycle.md R87, Machine/Cycle.lean). -/

namespace Sys2Proof.Machine

/-- LD Vx, DT (R160). -/
def execLdVxDt (x : Nibble) (s : State) : Host.Outcome State Fault Refusal := done (s.setReg x s.dt).advance

/-- LD Vx, K (R161): a poll; with no key pressed nothing changes, `PC` included, and nothing is reported. -/
def execLdVxK (x : Nibble) (s : State) : Host.Outcome State Fault Refusal :=
  match leastKey s with
  | none => done s
  | some k => done (s.setReg x (k.setWidth 8)).advance

/-- LD DT, Vx (R162). -/
def execLdDtVx (x : Nibble) (s : State) : Host.Outcome State Fault Refusal := done (s.setDt (s.reg x)).advance

/-- LD ST, Vx (R163). -/
def execLdStVx (x : Nibble) (s : State) : Host.Outcome State Fault Refusal := done (s.setSt (s.reg x)).advance

end Sys2Proof.Machine
end

