-- ==== Sys2Proof/Machine/Step.lean ====
section
/-! DEFINITION. One step: the driver's turn, and `step()` of 40_step_cycle.md R82 with exec as its instruction
phase (all of it in Machine/Cycle.lean). -/

namespace Sys2Proof.Machine

def step (s : State) : Host.Outcome State Fault Refusal := cycle exec s

/-- `s` with an instruction, its bits numbered as spec/opcode_table.json numbers them, where `step` fetches its next
instruction (log 7). -/
def State.withFetchWord (s : State) (nbits w : Nat) : State := placeInstruction s (wordBytes (tableWord nbits w))

end Sys2Proof.Machine
end

