-- ==== Sys2Proof/Safety.lean ====
section
/-! DEFINITION. The terms that claims about the Machine use: what an instruction leaves unchanged, what a run must
not have met, and the invariants. -/

namespace Sys2Proof.Machine

/-- A named part of the state, for saying what may change. -/
inductive Part where
  | reg (x : Nibble)
  | index
  | pc
  | slot (k : Nibble)
  | sp
  | dt
  | st
  | key (k : Nibble)
  | display
  | dirty
  | gate
  | byte (a : Nat)
  | draws
  | schedule
  | outputs
  deriving DecidableEq, Repr

/-- Everything but the listed parts is the same in `t` as in `s`: the frame of a step from `s` to `t`. Memory is
compared byte by byte, through the model's read of one byte. -/
structure SameBut (ps : List Part) (s t : State) : Prop where
  regs : ∀ x, Part.reg x ∉ ps → t.reg x = s.reg x
  index : Part.index ∉ ps → t.i = s.i
  pc : Part.pc ∉ ps → t.pc = s.pc
  slots : ∀ k, Part.slot k ∉ ps → t.slot k = s.slot k
  sp : Part.sp ∉ ps → t.sp = s.sp
  dt : Part.dt ∉ ps → t.dt = s.dt
  st : Part.st ∉ ps → t.st = s.st
  keys : ∀ k, Part.key k ∉ ps → t.key k = s.key k
  display : Part.display ∉ ps → ∀ row col, t.pixel row col = s.pixel row col
  dirty : Part.dirty ∉ ps → t.dirty = s.dirty
  gate : Part.gate ∉ ps → t.gateOpen = s.gateOpen
  bytes : ∀ a, Part.byte a ∉ ps → t.byte a = s.byte a
  draws : Part.draws ∉ ps → t.draws = s.draws
  schedule : Part.schedule ∉ ps → t.schedule = s.schedule
  outputs : Part.outputs ∉ ps → t.out = s.out

/-- The parts that are the bytes at `a`, `a + 1`, … (`n` of them). -/
def byteParts (a n : Nat) : List Part := (List.range n).map fun k => .byte (a + k)

/-- The parts that are the registers `V0` to `Vx` (R62). -/
def regPartsUpTo (x : Nibble) : List Part := (List.range (regCount x)).map fun k => .reg (BitVec.ofNat 4 k)

/-- No step has reported (R177; 93_implementation_defined.md section 2): the premise of a claim about a program. -/
def State.Clean (s : State) : Prop := s.out.everReported = false

/-- The address of a data block exists (R44): the condition under which a block access executes. -/
def BlockExists (s : State) (n : Nat) : Prop := n = 0 ∨ s.i.toNat + n ≤ 4096

/-- What the byte at `a` is once `bytes` are stored from `base` on over the memory of `s`: the stored byte where there
is one, else the byte of `s` (R52). -/
def storedOver (s : State) (base : Nat) (bytes : List Byte) (a : Nat) : Byte :=
  if base ≤ a then (bytes[a - base]?).getD (s.byte a) else s.byte a

/-- The fetch in `t` reads memory as it is once `bytes` are stored from `base` on over the memory of `s` (R45, R52). -/
def FetchReadsStored (s : State) (base : Nat) (bytes : List Byte) (t : State) : Prop :=
  fetch t = some (storedOver s base bytes t.pc.toNat ++ storedOver s base bytes (t.pc.toNat + 1))

/-- The bound on `PC` and on the return addresses that R16 derives: `PC` never exceeds 0x10FE (so it never wraps),
and no stack slot exceeds 0x1000 (R102). -/
def PcBounded (s : State) : Prop := s.pc.toNat ≤ 0x10FE ∧ ∀ k, (s.slot k).toNat ≤ 0x1000

/-- Memory is in its canonical form. -/
def MemoryCanonical (s : State) : Prop := s.mem.wf = true

/-- The sprite bit that falls on a pixel under the wrap policy (R151, R153): whether one of the `n` sprite rows has
its bit for that pixel set. Written from the rule's positions, independently of the blit. -/
def spriteBitAt (s : State) (x y n : Nibble) (row : Fin 32) (col : Fin 64) : Prop :=
  ∃ r c : Nat, r < n.toNat ∧ c < 8 ∧ (s.byte (s.i.toNat + r)).getLsbD (7 - c) = true ∧
    ((s.reg x).toNat + c) % 64 = col.val ∧ ((s.reg y).toNat + r) % 32 = row.val

/-- The general register that an instruction names as its destination, if it names one alone (R14). -/
def destination : Instr → Option Nibble
  | .cls => none
  | .ret => none
  | .jp _ => none
  | .call _ => none
  | .seImm _ _ => none
  | .sneImm _ _ => none
  | .seReg _ _ => none
  | .ldImm x _ => some x
  | .addImm x _ => some x
  | .ldReg x _ => some x
  | .orReg x _ => some x
  | .andReg x _ => some x
  | .xorReg x _ => some x
  | .addReg x _ => some x
  | .sub x _ => some x
  | .shr x _ => some x
  | .subn x _ => some x
  | .shl x _ => some x
  | .sneReg _ _ => none
  | .ldI _ => none
  | .jpV0 _ => none
  | .rnd x _ => some x
  | .drw _ _ _ => none
  | .skp _ => none
  | .sknp _ => none
  | .ldVxDt x => some x
  | .ldVxK x => some x
  | .ldDtVx _ => none
  | .ldStVx _ => none
  | .addI _ => none
  | .ldF _ => none
  | .ldB _ => none
  | .storeRegs _ => none
  | .loadRegs x => some x

/-- The flag-defining instructions (the table of R14). -/
def definesFlag : Instr → Bool
  | .addReg _ _ => true
  | .sub _ _ => true
  | .shr _ _ => true
  | .subn _ _ => true
  | .shl _ _ => true
  | .drw _ _ _ => true
  | .cls => false
  | .ret => false
  | .jp _ => false
  | .call _ => false
  | .seImm _ _ => false
  | .sneImm _ _ => false
  | .seReg _ _ => false
  | .ldImm _ _ => false
  | .addImm _ _ => false
  | .ldReg _ _ => false
  | .orReg _ _ => false
  | .andReg _ _ => false
  | .xorReg _ _ => false
  | .sneReg _ _ => false
  | .ldI _ => false
  | .jpV0 _ => false
  | .rnd _ _ => false
  | .skp _ => false
  | .sknp _ => false
  | .ldVxDt _ => false
  | .ldVxK _ => false
  | .ldDtVx _ => false
  | .ldStVx _ => false
  | .addI _ => false
  | .ldF _ => false
  | .ldB _ => false
  | .storeRegs _ => false
  | .loadRegs _ => false

/-- The instructions that set `DT` or `ST` (R162, R163). -/
def setsTimer : Instr → Bool
  | .ldDtVx _ => true
  | .ldStVx _ => true
  | .cls => false
  | .ret => false
  | .jp _ => false
  | .call _ => false
  | .seImm _ _ => false
  | .sneImm _ _ => false
  | .seReg _ _ => false
  | .ldImm _ _ => false
  | .addImm _ _ => false
  | .ldReg _ _ => false
  | .orReg _ _ => false
  | .andReg _ _ => false
  | .xorReg _ _ => false
  | .addReg _ _ => false
  | .sub _ _ => false
  | .shr _ _ => false
  | .subn _ _ => false
  | .shl _ _ => false
  | .sneReg _ _ => false
  | .ldI _ => false
  | .jpV0 _ => false
  | .rnd _ _ => false
  | .drw _ _ _ => false
  | .skp _ => false
  | .sknp _ => false
  | .ldVxDt _ => false
  | .ldVxK _ => false
  | .addI _ => false
  | .ldF _ => false
  | .ldB _ => false
  | .storeRegs _ => false
  | .loadRegs _ => false

end Sys2Proof.Machine
end

