-- ==== Sys2Proof/Certificates/Slice0/Obligations.lean ====
section
/-! DEFINITION. The statements for the provers. `t` is the state after, `s` the state before; `SameBut` is the frame
(Safety.lean). Where a clause rests on a decision of the spec (92_eei_decisions.md) or on an entry of the model's
log, the docstring says so. Where an instruction's own encoding is
not stated with it, it is R64's and is stated with the decoder. -/

open Sys2Proof Sys2Proof.Machine

/-! ## Encoding -/

/-- R61, R64, R67: decoding the word of any instruction gives that instruction back, with every operand at every
value. (The field positions are what R61 derives from the patterns, log 28.) -/
def Obligations.DecodeEncodeRoundTrip : Prop := ∀ i : Instr, decode (encode i) = .instr i

/-- R61, R64: a word that decodes to an instruction is that instruction's word: no bit is dropped, and no two words
are one instruction. -/
def Obligations.EncodeDecodeRoundTrip : Prop := ∀ (w : Word) (i : Instr), decode w = .instr i → encode i = w

/-- R66, R65 (D3, log 12): the decoder refuses exactly the words of R66's list, and hands the word itself back. -/
def Obligations.DecoderRefusesInvalidWords : Prop :=
  ∀ w : Word, (validWord w = false → decode w = .invalidOpcode w) ∧
    (validWord w = true → ∃ i, decode w = .instr i)

/-- Words written out from the encodings of spec/opcode_table.json, one per family and the invalid word 0x0000. -/
def Obligations.SampleWordsDecode : Prop :=
  decode 0b0000000011100000 = .instr .cls ∧
  decode 0b0010101010111100 = .instr (.call 0xABC) ∧
  decode 0b0011101001000010 = .instr (.seImm 0xA 0x42) ∧
  decode 0b1000101010110101 = .instr (.sub 0xA 0xB) ∧
  decode 0b1101101010110101 = .instr (.drw 0xA 0xB 0x5) ∧
  decode 0b1111001001010101 = .instr (.storeRegs 0x2) ∧
  decode 0b1111001000001010 = .instr (.ldVxK 0x2) ∧
  decode 0b0000000000000000 = .invalidOpcode 0x0000

/-- R43, R45, R83: the fetch reads `mem[PC]` as the high byte and `mem[PC+1]` as the low byte at any `PC` up to 0xFFE,
even or odd, and nothing above it (no wrap to 0). -/
def Obligations.FetchIsBigEndian : Prop :=
  ∀ s : State, (s.pc.toNat ≤ 0xFFE → fetch s = some (s.byte s.pc.toNat ++ s.byte (s.pc.toNat + 1))) ∧
    (0xFFE < s.pc.toNat → fetch s = none)

/-! ## The step cycle -/

/-- R82, R87, R88, R89: when the gate is open after the driver's turn and the word at `PC` decodes to `i`, step runs
`i` on that state (the gate closed, no report yet) and then the timers count down (after a report and a key wait too:
D6, log 14), the beep is whether `ST` is still not 0, the result is handed out, and this step's random byte is used up
(log 3); nothing else (of the other outputs, the model's own, nothing is said). -/
def Obligations.StepRunsDecodedInstruction : Prop :=
  ∀ (s u : State) (w : Word) (i : Instr),
    driverTurn s = .next u → u.gateOpen = true → fetch u = some w → decode w = .instr i →
      ((beginStep u).gateOpen = false ∧ (beginStep u).out.report = none ∧ SameBut [.gate, .outputs] u (beginStep u)) ∧
      (∀ t, exec i (beginStep u) = .next t → ∃ z, step s = .next z ∧
        z.dt.toNat = t.dt.toNat - 1 ∧ z.st.toNat = t.st.toNat - 1 ∧ z.draws = t.draws + 1 ∧
        z.out.result = some (.executed (some w) t.out.report (z.st != 0)) ∧
        SameBut [.dt, .st, .draws, .outputs] t z)

/-- R177, R86: a report never stops the Machine, and nothing else does: every instruction in every state has a next
state, and so has every step once the driver's turn is over. (With the statement above: a step IS its instruction's
next state and the timer phase.) -/
def Obligations.NothingStopsTheMachine : Prop :=
  (∀ (i : Instr) (s : State), ∃ t, exec i s = .next t) ∧
    (∀ s u : State, driverTurn s = .next u → ∃ t, step s = .next t)

/-- The driver's turn (log 6, the model's choice): with no move scheduled it is one tick (R80); with moves scheduled
they are made one after another, the first one first, and the schedule moves on; a refused move ends the turn. -/
def Obligations.DriverTurnTakesTheSchedule : Prop :=
  ∀ s : State, (s.schedule = [] → driverTurn s = .next (s.setGate true)) ∧
    (∀ ops rest, s.schedule = ops :: rest → driverTurn s = hostOps ops (s.setSchedule rest)) ∧
    hostOps [] s = .next s ∧
    (∀ op ops t, hostOp op s = .next t → hostOps (op :: ops) s = hostOps ops t) ∧
    (∀ op ops r, hostOp op s = .refused r → hostOps (op :: ops) s = .refused r)

/-- R84 (D10, log 5): a step that finds the gate closed changes nothing and answers Gated. -/
def Obligations.GatedStepChangesNothing : Prop :=
  ∀ s u : State, driverTurn s = .next u → u.gateOpen = false →
    ∃ t, step s = .next t ∧ t.out.result = some .gated ∧ t.out.report = u.out.report ∧
      t.out.everReported = u.out.everReported ∧ t.mem = u.mem ∧ SameBut [.outputs] u t

/-- R83, R175 (D11, log 10; D6, log 14): with `PC` above 0xFFE an executed step reports FetchBounds with no opcode,
leaves `PC` and everything else, closes the gate, and runs the timer phase. -/
def Obligations.FetchBoundsStep : Prop :=
  ∀ s u : State, driverTurn s = .next u → u.gateOpen = true → 0xFFE < u.pc.toNat →
    ∃ t, step s = .next t ∧ t.out.result = some (.executed none (some .fetchBounds) (t.st != 0)) ∧
      t.gateOpen = false ∧ t.dt.toNat = u.dt.toNat - 1 ∧ t.st.toNat = u.st.toNat - 1 ∧
      SameBut [.gate, .dt, .st, .draws, .outputs] u t

/-- R86, R171 (D2, log 12; D6, log 14): a word that is no instruction is reported with the word itself, `PC` is not
advanced, and only the gate and the timer phase change anything. -/
def Obligations.InvalidOpcodeStep : Prop :=
  ∀ (s u : State) (w : Word), driverTurn s = .next u → u.gateOpen = true → fetch u = some w → validWord w = false →
    ∃ t, step s = .next t ∧ t.out.result = some (.executed (some w) (some (.invalidOpcode w)) (t.st != 0)) ∧
      t.gateOpen = false ∧ t.pc = u.pc ∧ t.dt.toNat = u.dt.toNat - 1 ∧ t.st.toNat = u.st.toNat - 1 ∧
      SameBut [.gate, .dt, .st, .draws, .outputs] u t

/-- R87 (D6, log 14): every executed step counts both timers down by one, floored at 0, whatever its instruction phase
did (an instruction, a report, a key wait), unless the instruction itself sets a timer. -/
def Obligations.TimersCountDownOnExecutedSteps : Prop :=
  ∀ s u t : State, driverTurn s = .next u → u.gateOpen = true → step s = .next t →
    (∀ w i, fetch u = some w → decode w = .instr i → setsTimer i = false) →
    t.dt.toNat = u.dt.toNat - 1 ∧ t.st.toNat = u.st.toNat - 1

/-- R162, R163, R220, R88: the step that sets a timer to `k` counts it down at once: `DT` or `ST` ends as `k - 1`
(0 for 0), and setting `ST` beeps exactly for `k` at least 2. -/
def Obligations.SetTimerCountsDownAtOnce : Prop :=
  ∀ (s u : State) (w : Word) (x : Nibble), driverTurn s = .next u → u.gateOpen = true → fetch u = some w →
    (decode w = .instr (.ldDtVx x) → ∃ t, step s = .next t ∧ t.dt.toNat = (u.reg x).toNat - 1 ∧
      t.st.toNat = u.st.toNat - 1 ∧ t.pc = u.pc + 2) ∧
    (decode w = .instr (.ldStVx x) → ∃ t, step s = .next t ∧ t.st.toNat = (u.reg x).toNat - 1 ∧
      t.dt.toNat = u.dt.toNat - 1 ∧ t.pc = u.pc + 2 ∧
      t.out.result = some (.executed (some w) none (decide (2 ≤ (u.reg x).toNat))))

/-- R88 (D30, log 5): the beep of an executed step is whether `ST` is not 0 after the step; in every state. -/
def Obligations.BeepIffSoundTimerRuns : Prop :=
  ∀ s t : State, step s = .next t → ∀ w r b, t.out.result = some (.executed w r b) → (b = true ↔ t.st.toNat ≠ 0)

/-- R90, R31 (D7, D9, log 27): after a step the gate is closed, so the next step without a tick is gated: at most one
instruction per tick. -/
def Obligations.StepLeavesGateClosed : Prop := ∀ s t : State, step s = .next t → t.gateOpen = false

/-- R177 and 93_implementation_defined.md (log 4): the permanent mark is set exactly when this step or an earlier one
has reported; nothing clears it, `reset()` included. -/
def Obligations.ReportMarkIsPermanent : Prop :=
  ∀ s t : State, step s = .next t →
    (t.out.everReported = true ↔
      s.out.everReported = true ∨ ∃ w r b, t.out.result = some (.executed w (some r) b))

/-! ## Reports -/

/-- R85, R175 (D11, log 10; D12, log 11): an instruction that raises a report has no other effect: registers, memory,
display, timers, stack and `PC` are as they were. The model's own mark beside the Machine is then set (log 4; R177 and
93_implementation_defined.md section 2). Over all instructions. -/
def Obligations.ReportingInstructionChangesNothing : Prop :=
  ∀ (i : Instr) (s t : State), s.out.report = none → exec i s = .next t → t.out.report ≠ none →
    t.out.everReported = true ∧ SameBut [.outputs] s t

/-- R176, R170 (D11, log 10; D12, log 11): which instruction can raise which report, in which states, and the value it
records. Over all instructions. -/
def Obligations.ReportsByInstruction : Prop :=
  ∀ (i : Instr) (s t : State) (r : Report), s.out.report = none → exec i s = .next t → t.out.report = some r →
    ((∃ nnn, i = .call nnn) ∧ r = .stackOverflow ∧ s.sp.toNat = 15) ∨
    (i = .ret ∧ r = .stackUnderflow ∧ s.sp.toNat = 0) ∨
    ((∃ x y n, i = .drw x y n ∧ ¬ BlockExists s n.toNat) ∧ r = .memoryBounds s.i) ∨
    ((∃ x, i = .ldB x ∧ ¬ BlockExists s 3) ∧ r = .memoryBounds s.i) ∨
    ((∃ x, (i = .storeRegs x ∨ i = .loadRegs x) ∧ ¬ BlockExists s (x.toNat + 1)) ∧ r = .memoryBounds s.i) ∨
    (∃ x, (i = .skp x ∨ i = .sknp x) ∧ r = .keyIndexRange (s.reg x) ∧ 15 < (s.reg x).toNat)

/-- R101, R102, R172 (D12, log 11): CALL with `SP` = 15 and RET with `SP` = 0 report and change nothing. -/
def Obligations.StackLimitsReport : Prop :=
  ∀ s : State,
    (∀ nnn, s.sp.toNat = 15 → ∃ t, exec (.call nnn) s = .next t ∧ t.out.report = some .stackOverflow ∧
      SameBut [.outputs] s t) ∧
    (s.sp.toNat = 0 → ∃ t, exec .ret s = .next t ∧ t.out.report = some .stackUnderflow ∧ SameBut [.outputs] s t)

/-- R44, R143, R144, R145, R154 (D11, log 10): a block access with a byte above 0xFFF reports MemoryBounds with `I`
and changes nothing: no byte, no register, not `I`, no pixel. -/
def Obligations.BlockBoundsReport : Prop :=
  ∀ (x y n : Nibble) (s : State),
    (¬ BlockExists s 3 → ∃ t, exec (.ldB x) s = .next t ∧ t.out.report = some (.memoryBounds s.i) ∧
      SameBut [.outputs] s t) ∧
    (¬ BlockExists s (x.toNat + 1) → ∃ t, exec (.storeRegs x) s = .next t ∧
      t.out.report = some (.memoryBounds s.i) ∧ SameBut [.outputs] s t) ∧
    (¬ BlockExists s (x.toNat + 1) → ∃ t, exec (.loadRegs x) s = .next t ∧
      t.out.report = some (.memoryBounds s.i) ∧ SameBut [.outputs] s t) ∧
    (¬ BlockExists s n.toNat → ∃ t, exec (.drw x y n) s = .next t ∧
      t.out.report = some (.memoryBounds s.i) ∧ SameBut [.outputs] s t)

/-- R114, R115 (D11, log 10): a key index above 15 reports KeyIndexRange with the index and changes nothing. -/
def Obligations.KeyIndexReport : Prop :=
  ∀ (x : Nibble) (s : State), 15 < (s.reg x).toNat →
    (∃ t, exec (.skp x) s = .next t ∧ t.out.report = some (.keyIndexRange (s.reg x)) ∧ SameBut [.outputs] s t) ∧
    (∃ t, exec (.sknp x) s = .next t ∧ t.out.report = some (.keyIndexRange (s.reg x)) ∧ SameBut [.outputs] s t)

/-! ## Control transfer -/

/-- R100: the encoding; `PC <- zext_16(nnn)`; no flag, no report, nothing else. After a jump to 0xFFF there is nothing
to fetch (D11, log 10; the report of the following step is FetchBoundsStep's). -/
def Obligations.JumpGoesToTarget : Prop :=
  (∀ w : Word, w &&& 0xF000 = 0x1000 → decode w = .instr (.jp (fieldNnn w))) ∧
  (∀ (nnn : Addr) (s : State), ∃ t, exec (.jp nnn) s = .next t ∧ t.pc.toNat = nnn.toNat ∧
    (nnn = 0xFFF → fetch t = none) ∧ SameBut [.pc] s t)

/-- R103: `PC` becomes `nnn + V0`, never masked (no wrap can occur: the sum is at most 0x10FE). -/
def Obligations.IndexedJumpAddsV0 : Prop :=
  ∀ (nnn : Addr) (s : State), ∃ t, exec (.jpV0 nnn) s = .next t ∧
    t.pc.toNat = nnn.toNat + (s.reg 0).toNat ∧ t.pc.toNat ≤ 0x10FE ∧ SameBut [.pc] s t

/-- R102 (D4, D17, log 11): below the limit CALL increments `SP`, stores `pc + 2` in the slot the new `SP` indexes,
and jumps. -/
def Obligations.CallPushesReturnAddress : Prop :=
  ∀ (nnn : Addr) (s : State), s.sp.toNat ≤ 14 → ∃ t, exec (.call nnn) s = .next t ∧
    t.sp.toNat = s.sp.toNat + 1 ∧ t.slot t.sp = s.pc + 2 ∧ t.pc.toNat = nnn.toNat ∧
    SameBut [.pc, .sp, .slot t.sp] s t

/-- R101 (D4, log 11): RET loads `PC` from the slot `SP` indexes, as it stands, and decrements `SP`; the slot is not
cleared. -/
def Obligations.ReturnPopsReturnAddress : Prop :=
  ∀ s : State, 1 ≤ s.sp.toNat → ∃ t, exec .ret s = .next t ∧ t.pc = s.slot s.sp ∧
    t.sp.toNat = s.sp.toNat - 1 ∧ SameBut [.pc, .sp] s t

/-- R104 (D4, log 11): a CALL and, from any state that has left `SP` and its slot as the call left them, a RET: `PC`
is the address after the call and `SP` its value before the call. -/
def Obligations.CallReturnRoundTrip : Prop :=
  ∀ (nnn : Addr) (s t u : State), s.sp.toNat ≤ 14 → exec (.call nnn) s = .next t →
    u.sp = t.sp → u.slot t.sp = t.slot t.sp →
    ∃ z, exec .ret u = .next z ∧ z.pc = s.pc + 2 ∧ z.sp = s.sp

/-! ## Skips -/

/-- R110, R111: match and mask (the positions of the fields are stated with the decoder); SE and SNE with an immediate
move `PC` by 4 or 2; no register, flag or report. -/
def Obligations.SkipOnImmediate : Prop :=
  (∀ w : Word, (w &&& 0xF000 = 0x3000 → ∃ x kk, decode w = .instr (.seImm x kk)) ∧
    (w &&& 0xF000 = 0x4000 → ∃ x kk, decode w = .instr (.sneImm x kk))) ∧
  (∀ (x : Nibble) (kk : Byte) (s : State),
    (∃ t, exec (.seImm x kk) s = .next t ∧
      t.pc = (if (s.reg x).toNat = kk.toNat then s.pc + 4 else s.pc + 2) ∧ SameBut [.pc] s t) ∧
    (∃ t, exec (.sneImm x kk) s = .next t ∧
      t.pc = (if (s.reg x).toNat ≠ kk.toNat then s.pc + 4 else s.pc + 2) ∧ SameBut [.pc] s t))

/-- R112, R113: the encodings (a low nibble other than 0 is an invalid opcode: D3, log 12; field positions: log 28);
SE and SNE on two registers move `PC` by 4 or 2; no register, flag or report. -/
def Obligations.SkipOnRegisters : Prop :=
  (∀ w : Word, (w &&& 0xF00F = 0x5000 → decode w = .instr (.seReg (fieldX w) (fieldY w))) ∧
    (w &&& 0xF00F = 0x9000 → decode w = .instr (.sneReg (fieldX w) (fieldY w))) ∧
    (w &&& 0xF000 = 0x5000 ∨ w &&& 0xF000 = 0x9000 → fieldN w ≠ 0 → decode w = .invalidOpcode w)) ∧
  (∀ (x y : Nibble) (s : State),
    (∃ t, exec (.seReg x y) s = .next t ∧
      t.pc = (if (s.reg x).toNat = (s.reg y).toNat then s.pc + 4 else s.pc + 2) ∧ SameBut [.pc] s t) ∧
    (∃ t, exec (.sneReg x y) s = .next t ∧
      t.pc = (if (s.reg x).toNat ≠ (s.reg y).toNat then s.pc + 4 else s.pc + 2) ∧ SameBut [.pc] s t))

/-- R114, R115: with `V[x]` naming the key `k`, SKP skips if it is pressed and SKNP if it is not. -/
def Obligations.SkipOnKey : Prop :=
  ∀ (x k : Nibble) (s : State), (s.reg x).toNat = k.toNat →
    (∃ t, exec (.skp x) s = .next t ∧ t.pc = (if s.key k = true then s.pc + 4 else s.pc + 2) ∧
      SameBut [.pc] s t) ∧
    (∃ t, exec (.sknp x) s = .next t ∧ t.pc = (if s.key k = true then s.pc + 2 else s.pc + 4) ∧
      SameBut [.pc] s t)

/-! ## Register load and ALU -/

/-- R122, R123: match and mask (the positions of the fields are stated with the decoder); LD Vx, kk and ADD Vx, kk;
the sum wraps at 256 and no flag is written, `VF` only as `Vx`. -/
def Obligations.ImmediateLoadAndAdd : Prop :=
  (∀ w : Word, (w &&& 0xF000 = 0x6000 → ∃ x kk, decode w = .instr (.ldImm x kk)) ∧
    (w &&& 0xF000 = 0x7000 → ∃ x kk, decode w = .instr (.addImm x kk))) ∧
  (∀ (x : Nibble) (kk : Byte) (s : State),
    (∃ t, exec (.ldImm x kk) s = .next t ∧ t.reg x = kk ∧ t.pc = s.pc + 2 ∧ SameBut [.reg x, .pc] s t) ∧
    (∃ t, exec (.addImm x kk) s = .next t ∧ (t.reg x).toNat = ((s.reg x).toNat + kk.toNat) % 256 ∧
      t.pc = s.pc + 2 ∧ SameBut [.reg x, .pc] s t))

/-- R124 to R127 (operand roles: R134, log 21; `VF` not written: D24, log 16): LD, OR, AND, XOR on registers. -/
def Obligations.CopyAndBitwise : Prop :=
  ∀ (x y : Nibble) (s : State),
    (∃ t, exec (.ldReg x y) s = .next t ∧ t.reg x = s.reg y ∧ t.pc = s.pc + 2 ∧ SameBut [.reg x, .pc] s t) ∧
    (∃ t, exec (.orReg x y) s = .next t ∧ (∀ j, (t.reg x).getLsbD j = ((s.reg x).getLsbD j || (s.reg y).getLsbD j)) ∧
      t.pc = s.pc + 2 ∧ SameBut [.reg x, .pc] s t) ∧
    (∃ t, exec (.andReg x y) s = .next t ∧ (∀ j, (t.reg x).getLsbD j = ((s.reg x).getLsbD j && (s.reg y).getLsbD j)) ∧
      t.pc = s.pc + 2 ∧ SameBut [.reg x, .pc] s t) ∧
    (∃ t, exec (.xorReg x y) s = .next t ∧ (∀ j, (t.reg x).getLsbD j = ((s.reg x).getLsbD j ^^ (s.reg y).getLsbD j)) ∧
      t.pc = s.pc + 2 ∧ SameBut [.reg x, .pc] s t)

/-- R128, R121 (operand roles: R134, log 21; the flag written last: D15, log 16): ADD Vx, Vy wraps at 256; `VF` is the
carry, also for x = F. -/
def Obligations.AddWithCarry : Prop :=
  ∀ (x y : Nibble) (s : State), ∃ t, exec (.addReg x y) s = .next t ∧
    (x ≠ 0xF → (t.reg x).toNat = ((s.reg x).toNat + (s.reg y).toNat) % 256) ∧
    (t.reg 0xF).toNat = (if (s.reg x).toNat + (s.reg y).toNat > 255 then 1 else 0) ∧
    t.pc = s.pc + 2 ∧ SameBut [.reg x, .reg 0xF, .pc] s t

/-- R129, R131, R121 (operand roles, PRESUMED for SUBN: R134, log 21; strict flag: 90_conflicts.md C1, log 13; flag
last: D15, log 16): SUB and SUBN wrap at 256; `VF` is whether the left operand is strictly greater. -/
def Obligations.SubtractWithFlag : Prop :=
  ∀ (x y : Nibble) (s : State),
    (∃ t, exec (.sub x y) s = .next t ∧
      (x ≠ 0xF → (t.reg x).toNat = (256 + (s.reg x).toNat - (s.reg y).toNat) % 256) ∧
      (t.reg 0xF).toNat = (if (s.reg x).toNat > (s.reg y).toNat then 1 else 0) ∧
      t.pc = s.pc + 2 ∧ SameBut [.reg x, .reg 0xF, .pc] s t) ∧
    (∃ t, exec (.subn x y) s = .next t ∧
      (x ≠ 0xF → (t.reg x).toNat = (256 + (s.reg y).toNat - (s.reg x).toNat) % 256) ∧
      (t.reg 0xF).toNat = (if (s.reg y).toNat > (s.reg x).toNat then 1 else 0) ∧
      t.pc = s.pc + 2 ∧ SameBut [.reg x, .reg 0xF, .pc] s t)

/-- R130, R132, R67, R121 (flag last: D15, log 16): SHR halves and SHL doubles `V[x]` modulo 256, `VF` is the bit
shifted out; `y` makes no difference and `V[y]` is not written. -/
def Obligations.ShiftsByOne : Prop :=
  ∀ (x y : Nibble) (s : State),
    (∃ t, exec (.shr x y) s = .next t ∧ (x ≠ 0xF → (t.reg x).toNat = (s.reg x).toNat / 2) ∧
      (t.reg 0xF).toNat = (s.reg x).toNat % 2 ∧ t.pc = s.pc + 2 ∧ SameBut [.reg x, .reg 0xF, .pc] s t) ∧
    (∃ t, exec (.shl x y) s = .next t ∧ (x ≠ 0xF → (t.reg x).toNat = (s.reg x).toNat * 2 % 256) ∧
      (t.reg 0xF).toNat = (s.reg x).toNat / 128 ∧ t.pc = s.pc + 2 ∧ SameBut [.reg x, .reg 0xF, .pc] s t)

/-- R133, R81 (D19, log 3): RND writes this step's random byte AND kk: the bits where kk is 0 are 0, and kk = 0 gives
0; nothing is said of the other bits but that they are the draw's. -/
def Obligations.RandomIsMasked : Prop :=
  ∀ (x : Nibble) (kk : Byte) (s : State), ∃ t, exec (.rnd x kk) s = .next t ∧
    (∀ j, (t.reg x).getLsbD j = ((Config.rnd s.draws).getLsbD j && kk.getLsbD j)) ∧
    (kk = 0 → t.reg x = 0) ∧ t.pc = s.pc + 2 ∧ SameBut [.reg x, .pc] s t

/-! ## Index register and memory -/

/-- R140: match and mask (the position of the field is stated with the decoder); `I <- zext_16(nnn)`; no flag, no
report, nothing else. -/
def Obligations.LoadIndex : Prop :=
  (∀ w : Word, w &&& 0xF000 = 0xA000 → ∃ nnn, decode w = .instr (.ldI nnn)) ∧
  (∀ (nnn : Addr) (s : State), ∃ t, exec (.ldI nnn) s = .next t ∧ t.i.toNat = nnn.toNat ∧ t.pc = s.pc + 2 ∧
    SameBut [.index, .pc] s t)

/-- R141, R142 (no mask: D26, log 20; `VF` not written: D24, log 16): ADD I, Vx wraps at 65536 and not at 4096, and
writes no flag; LD F, Vx is `V[x] * 5` for every `V[x]`. -/
def Obligations.IndexArithmetic : Prop :=
  ∀ (x : Nibble) (s : State),
    (∃ t, exec (.addI x) s = .next t ∧ t.i.toNat = (s.i.toNat + (s.reg x).toNat) % 65536 ∧ t.pc = s.pc + 2 ∧
      SameBut [.index, .pc] s t) ∧
    (∃ t, exec (.ldF x) s = .next t ∧ t.i.toNat = (s.reg x).toNat * 5 ∧ t.pc = s.pc + 2 ∧
      SameBut [.index, .pc] s t)

/-- R143 (an `I` below 0x200 too: R42, D13, log 18): where the three bytes exist, LD B stores hundreds, tens and units
(tens as 90_conflicts.md C8 corrects them) at `I`, `I + 1`, `I + 2`, and changes no other byte and not `I`. -/
def Obligations.StoreDecimalDigits : Prop :=
  ∀ (x : Nibble) (s : State), BlockExists s 3 → ∃ t, exec (.ldB x) s = .next t ∧
    (t.byte s.i.toNat).toNat = (s.reg x).toNat / 100 ∧
    (t.byte (s.i.toNat + 1)).toNat = (s.reg x).toNat / 10 % 10 ∧
    (t.byte (s.i.toNat + 2)).toNat = (s.reg x).toNat % 10 ∧
    t.pc = s.pc + 2 ∧ SameBut (.pc :: byteParts s.i.toNat 3) s t

/-- R144 (an `I` below 0x200 too: R42, D13, log 18): where the block exists, LD [I], Vx stores `V0` to `Vx` from `I`
on and advances `I` by `x + 1`. -/
def Obligations.StoreRegisters : Prop :=
  ∀ (x : Nibble) (s : State), BlockExists s (x.toNat + 1) → ∃ t, exec (.storeRegs x) s = .next t ∧
    (∀ k : Nibble, k.toNat ≤ x.toNat → t.byte (s.i.toNat + k.toNat) = s.reg k) ∧
    t.i.toNat = s.i.toNat + x.toNat + 1 ∧ t.pc = s.pc + 2 ∧
    SameBut (.index :: .pc :: byteParts s.i.toNat (x.toNat + 1)) s t

/-- R145: where the block exists, LD Vx, [I] loads `V0` to `Vx` from `I` on (`VF` as data for x = F) and advances `I`
by `x + 1`; no byte of memory changes. -/
def Obligations.LoadRegisters : Prop :=
  ∀ (x : Nibble) (s : State), BlockExists s (x.toNat + 1) → ∃ t, exec (.loadRegs x) s = .next t ∧
    (∀ k : Nibble, k.toNat ≤ x.toNat → t.reg k = s.byte (s.i.toNat + k.toNat)) ∧
    t.i.toNat = s.i.toNat + x.toNat + 1 ∧ t.pc = s.pc + 2 ∧
    SameBut (.index :: .pc :: regPartsUpTo x) s t

/-- R146 (an `I` below 0x200 too: R42, D13, log 18): a store, and from any state with the same memory and `I` set back
a load of the same registers: each holds what it held at the store, and `I` has advanced by `x + 1` again. -/
def Obligations.StoreLoadRoundTrip : Prop :=
  ∀ (x : Nibble) (s t u : State), BlockExists s (x.toNat + 1) → exec (.storeRegs x) s = .next t →
    (∀ a, u.byte a = t.byte a) → u.i = s.i →
    ∃ z, exec (.loadRegs x) u = .next z ∧ (∀ k : Nibble, k.toNat ≤ x.toNat → z.reg k = s.reg k) ∧ z.i = t.i

/-- R52 (D22, D13, log 18): a byte written by LD [I], Vx, by LD B, Vx or by `loadProgram` is what the next fetch of its
address reads, whether it stands at `PC`, at `PC + 1` or at both; a byte that was not written reads as before. -/
def Obligations.FetchSeesStores : Prop :=
  ∀ s t : State, t.pc.toNat ≤ 0xFFE →
    (∀ x : Nibble, BlockExists s (x.toNat + 1) → exec (.storeRegs x) s = .next t →
      FetchReadsStored s s.i.toNat ((List.range (x.toNat + 1)).map fun k => s.reg (BitVec.ofNat 4 k)) t) ∧
    (∀ x : Nibble, BlockExists s 3 → exec (.ldB x) s = .next t →
      ∃ h u v : Byte, h.toNat = (s.reg x).toNat / 100 ∧ u.toNat = (s.reg x).toNat / 10 % 10 ∧
        v.toNat = (s.reg x).toNat % 10 ∧ FetchReadsStored s s.i.toNat [h, u, v] t) ∧
    (∀ bytes : List Byte, bytes.length ≤ 3584 → hostOp (.loadProgram bytes) s = .next t →
      FetchReadsStored s 0x200 bytes t)

/-! ## Display -/

/-- R150 (dirty also on a blank display: D16, log 19): CLS clears every pixel and sets `dirty`; `VF` is not written. -/
def Obligations.ClearDisplay : Prop :=
  ∀ s : State, ∃ t, exec .cls s = .next t ∧ (∀ row col, t.pixel row col = false) ∧ t.dirty = true ∧
    t.pc = s.pc + 2 ∧ SameBut [.display, .dirty, .pc] s t

/-- R151, R152, R154 (wrap: D1, log 9; bit order: D18, log 17; n = 0: D28, log 20; dirty also when no pixel changes:
D16, log 19): where the sprite's bytes exist, DRW flips exactly the pixels that a set sprite bit falls on; `VF` is 1
if one of them was on, else 0; `dirty` is set. -/
def Obligations.DrawSprite : Prop :=
  ∀ (x y n : Nibble) (s : State), BlockExists s n.toNat → ∃ t, exec (.drw x y n) s = .next t ∧
    (∀ row col, spriteBitAt s x y n row col → t.pixel row col = !(s.pixel row col)) ∧
    (∀ row col, ¬ spriteBitAt s x y n row col → t.pixel row col = s.pixel row col) ∧
    ((∃ row col, spriteBitAt s x y n row col ∧ s.pixel row col = true) → t.reg 0xF = 1) ∧
    ((∀ row col, spriteBitAt s x y n row col → s.pixel row col = false) → t.reg 0xF = 0) ∧
    t.dirty = true ∧ t.pc = s.pc + 2 ∧ SameBut [.display, .dirty, .reg 0xF, .pc] s t

/-- R151, R152 (wrap: D1, log 9; bit order: D18, log 17): the same sprite drawn again at the same place (the display
as the first draw left it; the coordinates, `I` and memory as they were) restores the display, and `VF` is then 1
exactly if some set sprite bit had met a pixel that was off. R154 says of the second `VF` only that it is 1 if the
sprite has any set bit: that is so where a set bit met an off pixel (a blank display, say); where every set bit met an
on pixel the first draw turned them all off, and `VF` is then 0 by R151 and R152, which this statement follows (log 29). -/
def Obligations.DrawTwiceRestores : Prop :=
  ∀ (x y n : Nibble) (s t u : State), BlockExists s n.toNat → exec (.drw x y n) s = .next t →
    (∀ row col, u.pixel row col = t.pixel row col) → u.reg x = s.reg x → u.reg y = s.reg y → u.i = s.i →
    (∀ a, u.byte a = s.byte a) →
    ∃ z, exec (.drw x y n) u = .next z ∧ (∀ row col, z.pixel row col = s.pixel row col) ∧
      (z.reg 0xF = 1 ↔ ∃ row col, spriteBitAt s x y n row col ∧ s.pixel row col = false)

/-! ## Timers and keys -/

/-- R160, R162, R163: the timer moves of the instruction phase (the same step's countdown is stated apart). -/
def Obligations.TimerMoves : Prop :=
  ∀ (x : Nibble) (s : State),
    (∃ t, exec (.ldVxDt x) s = .next t ∧ t.reg x = s.dt ∧ t.pc = s.pc + 2 ∧ SameBut [.reg x, .pc] s t) ∧
    (∃ t, exec (.ldDtVx x) s = .next t ∧ t.dt = s.reg x ∧ t.pc = s.pc + 2 ∧ SameBut [.dt, .pc] s t) ∧
    (∃ t, exec (.ldStVx x) s = .next t ∧ t.st = s.reg x ∧ t.pc = s.pc + 2 ∧ SameBut [.st, .pc] s t)

/-- R161 (lowest of several keys: D14, log 15): with key `k` pressed and no lower key, LD Vx, K completes with `k`. -/
def Obligations.KeyWaitTakesLeastKey : Prop :=
  ∀ (x k : Nibble) (s : State), s.key k = true → (∀ j : Nibble, j.toNat < k.toNat → s.key j = false) →
    ∃ t, exec (.ldVxK x) s = .next t ∧ (t.reg x).toNat = k.toNat ∧ t.pc = s.pc + 2 ∧ SameBut [.reg x, .pc] s t

/-- R161 (90_conflicts.md C10): with no key pressed LD Vx, K changes nothing at all, `PC` included, and reports
nothing. -/
def Obligations.KeyWaitPolls : Prop :=
  ∀ (x : Nibble) (s : State), (∀ k : Nibble, s.key k = false) →
    exec (.ldVxK x) s = .next s

/-! ## Whole-machine rules -/

/-- R14 (D24, D15, log 16): an instruction that defines no flag and does not name `VF` as its destination leaves `VF`;
one that defines the flag leaves 0 or 1 in it, whatever it held, unless it reported. Over all instructions. -/
def Obligations.FlagRegisterRule : Prop :=
  ∀ (i : Instr) (s t : State), exec i s = .next t →
    (definesFlag i = false → destination i ≠ some 0xF → t.reg 0xF = s.reg 0xF) ∧
    (definesFlag i = true → s.out.report = none → t.out.report = none → t.reg 0xF = 0 ∨ t.reg 0xF = 1)

/-- R20, R163, R191: no instruction reads `ST`: with another `ST` the same instruction does the same to everything
else, and the other `ST` is still there unless the instruction is LD ST, Vx. Over all instructions. -/
def Obligations.SoundTimerIsNeverRead : Prop :=
  ∀ (i : Instr) (s t : State) (b : Byte), exec i s = .next t →
    ((∀ x, i ≠ .ldStVx x) → t.st = s.st ∧ exec i (s.setSt b) = .next (t.setSt b)) ∧
    ((∃ x, i = .ldStVx x) → exec i (s.setSt b) = .next t)

/-- R22, R31, R30, R211: no instruction writes the keypad or the gate or clears `dirty`, and none touches the driver's
schedule or the draws (log 3, log 6). Over all instructions. -/
def Obligations.InstructionsLeaveHostSide : Prop :=
  ∀ (i : Instr) (s t : State), exec i s = .next t →
    (∀ k, t.key k = s.key k) ∧ t.gateOpen = s.gateOpen ∧ (s.dirty = true → t.dirty = true) ∧
    t.draws = s.draws ∧ t.schedule = s.schedule

/-- R16, R102 (bounds the spec derives, log 25): `PC` never exceeds 0x10FE and no return address exceeds 0x1000: every
step keeps it, so `PC` never wraps. -/
def Obligations.StepKeepsPcBounded : Prop := ∀ s t : State, PcBounded s → step s = .next t → PcBounded t

/-- R21: stack slot 0 is never written by a call: every step keeps it 0. -/
def Obligations.StepKeepsSlotZero : Prop := ∀ s t : State, s.slot 0 = 0 → step s = .next t → t.slot 0 = 0

/-- The canonical form of memory (the model's, log 23): every step keeps it, whatever the instruction stores and
whatever the driver loads; so no byte outside 0x000 to 0xFFF is ever listed (R40). -/
def Obligations.StepKeepsMemoryCanonical : Prop :=
  ∀ s t : State, MemoryCanonical s → step s = .next t → MemoryCanonical t

/-- What the model says of its power-on state (log 8): the three invariants, each of which every step keeps, and the
premise Clean. `PC` and the slots are in the bounds that R16 and R102 derive (log 25) and slot 0 is 0 (R21), by the values
of R210; memory is in the model's own canonical form (log 23); no report is marked, which is the model's own mark, false
at reset by DESIGN CHOICE (log 4), and nothing that R210 says. -/
def Obligations.InvariantsAtReset : Prop :=
  PcBounded State.reset ∧ State.reset.slot 0 = 0 ∧ MemoryCanonical State.reset ∧ State.Clean State.reset

/-! ## Power-on and the driver's operations -/

/-- R210, R33 (FONT is the parameter Config.font: D5, log 1; GATE_AT_RESET is Config.gateAtReset: D8, log 2): the state
after power-on. -/
def Obligations.PowerOnState : Prop :=
  (∀ a, a < 0x50 → Config.font[a]? = some (State.reset.byte a)) ∧ Config.font.length = 0x50 ∧
  (∀ a, 0x50 ≤ a → State.reset.byte a = 0) ∧
  (∀ x, State.reset.reg x = 0) ∧ State.reset.i = 0 ∧ State.reset.pc = 0x200 ∧ (∀ k, State.reset.slot k = 0) ∧
  State.reset.sp = 0 ∧ State.reset.dt = 0 ∧ State.reset.st = 0 ∧ (∀ k, State.reset.key k = false) ∧
  (∀ row col, State.reset.pixel row col = false) ∧ State.reset.dirty = false ∧
  State.reset.gateOpen = Config.gateAtReset

/-- R211, R212 (memory untouched: D23, log 26; the gate: D8, log 2): `reset()` from any state, and that doing it again
changes nothing. -/
def Obligations.ResetOperation : Prop :=
  ∀ s : State, ∃ t, hostOp .reset s = .next t ∧
    t.pc = 0x200 ∧ t.sp = 0 ∧ t.i = 0 ∧ t.dt = 0 ∧ t.st = 0 ∧ (∀ x, t.reg x = 0) ∧ (∀ k, t.key k = false) ∧
    (∀ k, t.slot k = 0) ∧ (∀ row col, t.pixel row col = false) ∧ t.dirty = true ∧
    t.gateOpen = Config.gateAtReset ∧ (∀ a, t.byte a = s.byte a) ∧ t.out = s.out ∧ hostOp .reset t = .next t

/-- R196, R174 (D29, log 26): `loadProgram` lays its bytes at 0x200 and changes nothing else of the Machine; with more
than 3584 bytes it answers CapacityError and changes nothing. -/
def Obligations.LoadProgramOperation : Prop :=
  ∀ (bytes : List Byte) (s : State),
    (bytes.length ≤ 3584 → ∃ t, hostOp (.loadProgram bytes) s = .next t ∧ t.out.loadReport = none ∧
      (∀ k (h : k < bytes.length), t.byte (0x200 + k) = bytes[k]) ∧
      SameBut (.outputs :: byteParts 0x200 bytes.length) s t) ∧
    (3584 < bytes.length → ∃ t, hostOp (.loadProgram bytes) s = .next t ∧
      t.out.loadReport = some .capacityError ∧ t.mem = s.mem ∧ SameBut [.outputs] s t)

/-- R80, R195, R193 (an index above 15 is refused: log 22; what is handed out: D20, log 5): the tick opens the gate,
`setKey` writes one key, `takeFramebuffer` hands out the grid and the old `dirty` and clears it; nothing else. -/
def Obligations.DriverInputs : Prop :=
  ∀ s : State,
    (∃ t, hostOp .tick s = .next t ∧ t.gateOpen = true ∧ SameBut [.gate] s t) ∧
    (∀ (k : Nibble) (b : Bool), ∃ t, hostOp (.setKey k.toNat b) s = .next t ∧ t.key k = b ∧
      SameBut [.key k] s t) ∧
    (∀ (n : Nat) (b : Bool), 15 < n → hostOp (.setKey n b) s = .refused (.setKeyIndex n)) ∧
    (∃ t, hostOp .takeFramebuffer s = .next t ∧ t.dirty = false ∧ t.out.frame = some (s.fb, s.dirty) ∧
      SameBut [.dirty, .outputs] s t)
end

