-- ==== Sys2Proof/Laws/State.lean ====
section
/-! SUPPORT. The small lemmas of the state: one per field per update, and one per accessor per update, so that no
later proof unfolds a record update. -/

namespace Sys2Proof.Machine

variable (s : State)

@[simp] theorem State.setReg_i (x : Nibble) (b : Byte) : (s.setReg x b).i = s.i := rfl
@[simp] theorem State.setReg_pc (x : Nibble) (b : Byte) : (s.setReg x b).pc = s.pc := rfl
@[simp] theorem State.setReg_stack (x : Nibble) (b : Byte) : (s.setReg x b).stack = s.stack := rfl
@[simp] theorem State.setReg_sp (x : Nibble) (b : Byte) : (s.setReg x b).sp = s.sp := rfl
@[simp] theorem State.setReg_dt (x : Nibble) (b : Byte) : (s.setReg x b).dt = s.dt := rfl
@[simp] theorem State.setReg_st (x : Nibble) (b : Byte) : (s.setReg x b).st = s.st := rfl
@[simp] theorem State.setReg_keys (x : Nibble) (b : Byte) : (s.setReg x b).keys = s.keys := rfl
@[simp] theorem State.setReg_fb (x : Nibble) (b : Byte) : (s.setReg x b).fb = s.fb := rfl
@[simp] theorem State.setReg_dirty (x : Nibble) (b : Byte) : (s.setReg x b).dirty = s.dirty := rfl
@[simp] theorem State.setReg_gateOpen (x : Nibble) (b : Byte) : (s.setReg x b).gateOpen = s.gateOpen := rfl
@[simp] theorem State.setReg_mem (x : Nibble) (b : Byte) : (s.setReg x b).mem = s.mem := rfl
@[simp] theorem State.setReg_draws (x : Nibble) (b : Byte) : (s.setReg x b).draws = s.draws := rfl
@[simp] theorem State.setReg_schedule (x : Nibble) (b : Byte) : (s.setReg x b).schedule = s.schedule := rfl
@[simp] theorem State.setReg_out (x : Nibble) (b : Byte) : (s.setReg x b).out = s.out := rfl
@[simp] theorem State.slot_setReg (x : Nibble) (b : Byte) (y : Nibble) : (s.setReg x b).slot y = s.slot y := rfl
@[simp] theorem State.key_setReg (x : Nibble) (b : Byte) (y : Nibble) : (s.setReg x b).key y = s.key y := rfl
@[simp] theorem State.byte_setReg (x : Nibble) (b : Byte) (a' : Nat) : (s.setReg x b).byte a' = s.byte a' := rfl
@[simp] theorem State.pixel_setReg (x : Nibble) (b : Byte) (row : Fin 32) (col : Fin 64) : (s.setReg x b).pixel row col = s.pixel row col := rfl

@[simp] theorem State.setRegs_i (bs : List Byte) : (s.setRegs bs).i = s.i := rfl
@[simp] theorem State.setRegs_pc (bs : List Byte) : (s.setRegs bs).pc = s.pc := rfl
@[simp] theorem State.setRegs_stack (bs : List Byte) : (s.setRegs bs).stack = s.stack := rfl
@[simp] theorem State.setRegs_sp (bs : List Byte) : (s.setRegs bs).sp = s.sp := rfl
@[simp] theorem State.setRegs_dt (bs : List Byte) : (s.setRegs bs).dt = s.dt := rfl
@[simp] theorem State.setRegs_st (bs : List Byte) : (s.setRegs bs).st = s.st := rfl
@[simp] theorem State.setRegs_keys (bs : List Byte) : (s.setRegs bs).keys = s.keys := rfl
@[simp] theorem State.setRegs_fb (bs : List Byte) : (s.setRegs bs).fb = s.fb := rfl
@[simp] theorem State.setRegs_dirty (bs : List Byte) : (s.setRegs bs).dirty = s.dirty := rfl
@[simp] theorem State.setRegs_gateOpen (bs : List Byte) : (s.setRegs bs).gateOpen = s.gateOpen := rfl
@[simp] theorem State.setRegs_mem (bs : List Byte) : (s.setRegs bs).mem = s.mem := rfl
@[simp] theorem State.setRegs_draws (bs : List Byte) : (s.setRegs bs).draws = s.draws := rfl
@[simp] theorem State.setRegs_schedule (bs : List Byte) : (s.setRegs bs).schedule = s.schedule := rfl
@[simp] theorem State.setRegs_out (bs : List Byte) : (s.setRegs bs).out = s.out := rfl
@[simp] theorem State.slot_setRegs (bs : List Byte) (y : Nibble) : (s.setRegs bs).slot y = s.slot y := rfl
@[simp] theorem State.key_setRegs (bs : List Byte) (y : Nibble) : (s.setRegs bs).key y = s.key y := rfl
@[simp] theorem State.byte_setRegs (bs : List Byte) (a' : Nat) : (s.setRegs bs).byte a' = s.byte a' := rfl
@[simp] theorem State.pixel_setRegs (bs : List Byte) (row : Fin 32) (col : Fin 64) : (s.setRegs bs).pixel row col = s.pixel row col := rfl

@[simp] theorem State.setI_v (w : Word) : (s.setI w).v = s.v := rfl
@[simp] theorem State.setI_i (w : Word) : (s.setI w).i = w := rfl
@[simp] theorem State.setI_pc (w : Word) : (s.setI w).pc = s.pc := rfl
@[simp] theorem State.setI_stack (w : Word) : (s.setI w).stack = s.stack := rfl
@[simp] theorem State.setI_sp (w : Word) : (s.setI w).sp = s.sp := rfl
@[simp] theorem State.setI_dt (w : Word) : (s.setI w).dt = s.dt := rfl
@[simp] theorem State.setI_st (w : Word) : (s.setI w).st = s.st := rfl
@[simp] theorem State.setI_keys (w : Word) : (s.setI w).keys = s.keys := rfl
@[simp] theorem State.setI_fb (w : Word) : (s.setI w).fb = s.fb := rfl
@[simp] theorem State.setI_dirty (w : Word) : (s.setI w).dirty = s.dirty := rfl
@[simp] theorem State.setI_gateOpen (w : Word) : (s.setI w).gateOpen = s.gateOpen := rfl
@[simp] theorem State.setI_mem (w : Word) : (s.setI w).mem = s.mem := rfl
@[simp] theorem State.setI_draws (w : Word) : (s.setI w).draws = s.draws := rfl
@[simp] theorem State.setI_schedule (w : Word) : (s.setI w).schedule = s.schedule := rfl
@[simp] theorem State.setI_out (w : Word) : (s.setI w).out = s.out := rfl
@[simp] theorem State.reg_setI (w : Word) (y : Nibble) : (s.setI w).reg y = s.reg y := rfl
@[simp] theorem State.slot_setI (w : Word) (y : Nibble) : (s.setI w).slot y = s.slot y := rfl
@[simp] theorem State.key_setI (w : Word) (y : Nibble) : (s.setI w).key y = s.key y := rfl
@[simp] theorem State.byte_setI (w : Word) (a' : Nat) : (s.setI w).byte a' = s.byte a' := rfl
@[simp] theorem State.pixel_setI (w : Word) (row : Fin 32) (col : Fin 64) : (s.setI w).pixel row col = s.pixel row col := rfl

@[simp] theorem State.setPc_v (w : Word) : (s.setPc w).v = s.v := rfl
@[simp] theorem State.setPc_i (w : Word) : (s.setPc w).i = s.i := rfl
@[simp] theorem State.setPc_pc (w : Word) : (s.setPc w).pc = w := rfl
@[simp] theorem State.setPc_stack (w : Word) : (s.setPc w).stack = s.stack := rfl
@[simp] theorem State.setPc_sp (w : Word) : (s.setPc w).sp = s.sp := rfl
@[simp] theorem State.setPc_dt (w : Word) : (s.setPc w).dt = s.dt := rfl
@[simp] theorem State.setPc_st (w : Word) : (s.setPc w).st = s.st := rfl
@[simp] theorem State.setPc_keys (w : Word) : (s.setPc w).keys = s.keys := rfl
@[simp] theorem State.setPc_fb (w : Word) : (s.setPc w).fb = s.fb := rfl
@[simp] theorem State.setPc_dirty (w : Word) : (s.setPc w).dirty = s.dirty := rfl
@[simp] theorem State.setPc_gateOpen (w : Word) : (s.setPc w).gateOpen = s.gateOpen := rfl
@[simp] theorem State.setPc_mem (w : Word) : (s.setPc w).mem = s.mem := rfl
@[simp] theorem State.setPc_draws (w : Word) : (s.setPc w).draws = s.draws := rfl
@[simp] theorem State.setPc_schedule (w : Word) : (s.setPc w).schedule = s.schedule := rfl
@[simp] theorem State.setPc_out (w : Word) : (s.setPc w).out = s.out := rfl
@[simp] theorem State.reg_setPc (w : Word) (y : Nibble) : (s.setPc w).reg y = s.reg y := rfl
@[simp] theorem State.slot_setPc (w : Word) (y : Nibble) : (s.setPc w).slot y = s.slot y := rfl
@[simp] theorem State.key_setPc (w : Word) (y : Nibble) : (s.setPc w).key y = s.key y := rfl
@[simp] theorem State.byte_setPc (w : Word) (a' : Nat) : (s.setPc w).byte a' = s.byte a' := rfl
@[simp] theorem State.pixel_setPc (w : Word) (row : Fin 32) (col : Fin 64) : (s.setPc w).pixel row col = s.pixel row col := rfl

@[simp] theorem State.setSp_v (n : Nibble) : (s.setSp n).v = s.v := rfl
@[simp] theorem State.setSp_i (n : Nibble) : (s.setSp n).i = s.i := rfl
@[simp] theorem State.setSp_pc (n : Nibble) : (s.setSp n).pc = s.pc := rfl
@[simp] theorem State.setSp_stack (n : Nibble) : (s.setSp n).stack = s.stack := rfl
@[simp] theorem State.setSp_sp (n : Nibble) : (s.setSp n).sp = n := rfl
@[simp] theorem State.setSp_dt (n : Nibble) : (s.setSp n).dt = s.dt := rfl
@[simp] theorem State.setSp_st (n : Nibble) : (s.setSp n).st = s.st := rfl
@[simp] theorem State.setSp_keys (n : Nibble) : (s.setSp n).keys = s.keys := rfl
@[simp] theorem State.setSp_fb (n : Nibble) : (s.setSp n).fb = s.fb := rfl
@[simp] theorem State.setSp_dirty (n : Nibble) : (s.setSp n).dirty = s.dirty := rfl
@[simp] theorem State.setSp_gateOpen (n : Nibble) : (s.setSp n).gateOpen = s.gateOpen := rfl
@[simp] theorem State.setSp_mem (n : Nibble) : (s.setSp n).mem = s.mem := rfl
@[simp] theorem State.setSp_draws (n : Nibble) : (s.setSp n).draws = s.draws := rfl
@[simp] theorem State.setSp_schedule (n : Nibble) : (s.setSp n).schedule = s.schedule := rfl
@[simp] theorem State.setSp_out (n : Nibble) : (s.setSp n).out = s.out := rfl
@[simp] theorem State.reg_setSp (n : Nibble) (y : Nibble) : (s.setSp n).reg y = s.reg y := rfl
@[simp] theorem State.slot_setSp (n : Nibble) (y : Nibble) : (s.setSp n).slot y = s.slot y := rfl
@[simp] theorem State.key_setSp (n : Nibble) (y : Nibble) : (s.setSp n).key y = s.key y := rfl
@[simp] theorem State.byte_setSp (n : Nibble) (a' : Nat) : (s.setSp n).byte a' = s.byte a' := rfl
@[simp] theorem State.pixel_setSp (n : Nibble) (row : Fin 32) (col : Fin 64) : (s.setSp n).pixel row col = s.pixel row col := rfl

@[simp] theorem State.setSlot_v (k : Nibble) (w : Word) : (s.setSlot k w).v = s.v := rfl
@[simp] theorem State.setSlot_i (k : Nibble) (w : Word) : (s.setSlot k w).i = s.i := rfl
@[simp] theorem State.setSlot_pc (k : Nibble) (w : Word) : (s.setSlot k w).pc = s.pc := rfl
@[simp] theorem State.setSlot_sp (k : Nibble) (w : Word) : (s.setSlot k w).sp = s.sp := rfl
@[simp] theorem State.setSlot_dt (k : Nibble) (w : Word) : (s.setSlot k w).dt = s.dt := rfl
@[simp] theorem State.setSlot_st (k : Nibble) (w : Word) : (s.setSlot k w).st = s.st := rfl
@[simp] theorem State.setSlot_keys (k : Nibble) (w : Word) : (s.setSlot k w).keys = s.keys := rfl
@[simp] theorem State.setSlot_fb (k : Nibble) (w : Word) : (s.setSlot k w).fb = s.fb := rfl
@[simp] theorem State.setSlot_dirty (k : Nibble) (w : Word) : (s.setSlot k w).dirty = s.dirty := rfl
@[simp] theorem State.setSlot_gateOpen (k : Nibble) (w : Word) : (s.setSlot k w).gateOpen = s.gateOpen := rfl
@[simp] theorem State.setSlot_mem (k : Nibble) (w : Word) : (s.setSlot k w).mem = s.mem := rfl
@[simp] theorem State.setSlot_draws (k : Nibble) (w : Word) : (s.setSlot k w).draws = s.draws := rfl
@[simp] theorem State.setSlot_schedule (k : Nibble) (w : Word) : (s.setSlot k w).schedule = s.schedule := rfl
@[simp] theorem State.setSlot_out (k : Nibble) (w : Word) : (s.setSlot k w).out = s.out := rfl
@[simp] theorem State.reg_setSlot (k : Nibble) (w : Word) (y : Nibble) : (s.setSlot k w).reg y = s.reg y := rfl
@[simp] theorem State.key_setSlot (k : Nibble) (w : Word) (y : Nibble) : (s.setSlot k w).key y = s.key y := rfl
@[simp] theorem State.byte_setSlot (k : Nibble) (w : Word) (a' : Nat) : (s.setSlot k w).byte a' = s.byte a' := rfl
@[simp] theorem State.pixel_setSlot (k : Nibble) (w : Word) (row : Fin 32) (col : Fin 64) : (s.setSlot k w).pixel row col = s.pixel row col := rfl

@[simp] theorem State.setDt_v (b : Byte) : (s.setDt b).v = s.v := rfl
@[simp] theorem State.setDt_i (b : Byte) : (s.setDt b).i = s.i := rfl
@[simp] theorem State.setDt_pc (b : Byte) : (s.setDt b).pc = s.pc := rfl
@[simp] theorem State.setDt_stack (b : Byte) : (s.setDt b).stack = s.stack := rfl
@[simp] theorem State.setDt_sp (b : Byte) : (s.setDt b).sp = s.sp := rfl
@[simp] theorem State.setDt_dt (b : Byte) : (s.setDt b).dt = b := rfl
@[simp] theorem State.setDt_st (b : Byte) : (s.setDt b).st = s.st := rfl
@[simp] theorem State.setDt_keys (b : Byte) : (s.setDt b).keys = s.keys := rfl
@[simp] theorem State.setDt_fb (b : Byte) : (s.setDt b).fb = s.fb := rfl
@[simp] theorem State.setDt_dirty (b : Byte) : (s.setDt b).dirty = s.dirty := rfl
@[simp] theorem State.setDt_gateOpen (b : Byte) : (s.setDt b).gateOpen = s.gateOpen := rfl
@[simp] theorem State.setDt_mem (b : Byte) : (s.setDt b).mem = s.mem := rfl
@[simp] theorem State.setDt_draws (b : Byte) : (s.setDt b).draws = s.draws := rfl
@[simp] theorem State.setDt_schedule (b : Byte) : (s.setDt b).schedule = s.schedule := rfl
@[simp] theorem State.setDt_out (b : Byte) : (s.setDt b).out = s.out := rfl
@[simp] theorem State.reg_setDt (b : Byte) (y : Nibble) : (s.setDt b).reg y = s.reg y := rfl
@[simp] theorem State.slot_setDt (b : Byte) (y : Nibble) : (s.setDt b).slot y = s.slot y := rfl
@[simp] theorem State.key_setDt (b : Byte) (y : Nibble) : (s.setDt b).key y = s.key y := rfl
@[simp] theorem State.byte_setDt (b : Byte) (a' : Nat) : (s.setDt b).byte a' = s.byte a' := rfl
@[simp] theorem State.pixel_setDt (b : Byte) (row : Fin 32) (col : Fin 64) : (s.setDt b).pixel row col = s.pixel row col := rfl

@[simp] theorem State.setSt_v (b : Byte) : (s.setSt b).v = s.v := rfl
@[simp] theorem State.setSt_i (b : Byte) : (s.setSt b).i = s.i := rfl
@[simp] theorem State.setSt_pc (b : Byte) : (s.setSt b).pc = s.pc := rfl
@[simp] theorem State.setSt_stack (b : Byte) : (s.setSt b).stack = s.stack := rfl
@[simp] theorem State.setSt_sp (b : Byte) : (s.setSt b).sp = s.sp := rfl
@[simp] theorem State.setSt_dt (b : Byte) : (s.setSt b).dt = s.dt := rfl
@[simp] theorem State.setSt_st (b : Byte) : (s.setSt b).st = b := rfl
@[simp] theorem State.setSt_keys (b : Byte) : (s.setSt b).keys = s.keys := rfl
@[simp] theorem State.setSt_fb (b : Byte) : (s.setSt b).fb = s.fb := rfl
@[simp] theorem State.setSt_dirty (b : Byte) : (s.setSt b).dirty = s.dirty := rfl
@[simp] theorem State.setSt_gateOpen (b : Byte) : (s.setSt b).gateOpen = s.gateOpen := rfl
@[simp] theorem State.setSt_mem (b : Byte) : (s.setSt b).mem = s.mem := rfl
@[simp] theorem State.setSt_draws (b : Byte) : (s.setSt b).draws = s.draws := rfl
@[simp] theorem State.setSt_schedule (b : Byte) : (s.setSt b).schedule = s.schedule := rfl
@[simp] theorem State.setSt_out (b : Byte) : (s.setSt b).out = s.out := rfl
@[simp] theorem State.reg_setSt (b : Byte) (y : Nibble) : (s.setSt b).reg y = s.reg y := rfl
@[simp] theorem State.slot_setSt (b : Byte) (y : Nibble) : (s.setSt b).slot y = s.slot y := rfl
@[simp] theorem State.key_setSt (b : Byte) (y : Nibble) : (s.setSt b).key y = s.key y := rfl
@[simp] theorem State.byte_setSt (b : Byte) (a' : Nat) : (s.setSt b).byte a' = s.byte a' := rfl
@[simp] theorem State.pixel_setSt (b : Byte) (row : Fin 32) (col : Fin 64) : (s.setSt b).pixel row col = s.pixel row col := rfl

@[simp] theorem State.setKey_v (k : Nibble) (p : Bool) : (s.setKey k p).v = s.v := rfl
@[simp] theorem State.setKey_i (k : Nibble) (p : Bool) : (s.setKey k p).i = s.i := rfl
@[simp] theorem State.setKey_pc (k : Nibble) (p : Bool) : (s.setKey k p).pc = s.pc := rfl
@[simp] theorem State.setKey_stack (k : Nibble) (p : Bool) : (s.setKey k p).stack = s.stack := rfl
@[simp] theorem State.setKey_sp (k : Nibble) (p : Bool) : (s.setKey k p).sp = s.sp := rfl
@[simp] theorem State.setKey_dt (k : Nibble) (p : Bool) : (s.setKey k p).dt = s.dt := rfl
@[simp] theorem State.setKey_st (k : Nibble) (p : Bool) : (s.setKey k p).st = s.st := rfl
@[simp] theorem State.setKey_fb (k : Nibble) (p : Bool) : (s.setKey k p).fb = s.fb := rfl
@[simp] theorem State.setKey_dirty (k : Nibble) (p : Bool) : (s.setKey k p).dirty = s.dirty := rfl
@[simp] theorem State.setKey_gateOpen (k : Nibble) (p : Bool) : (s.setKey k p).gateOpen = s.gateOpen := rfl
@[simp] theorem State.setKey_mem (k : Nibble) (p : Bool) : (s.setKey k p).mem = s.mem := rfl
@[simp] theorem State.setKey_draws (k : Nibble) (p : Bool) : (s.setKey k p).draws = s.draws := rfl
@[simp] theorem State.setKey_schedule (k : Nibble) (p : Bool) : (s.setKey k p).schedule = s.schedule := rfl
@[simp] theorem State.setKey_out (k : Nibble) (p : Bool) : (s.setKey k p).out = s.out := rfl
@[simp] theorem State.reg_setKey (k : Nibble) (p : Bool) (y : Nibble) : (s.setKey k p).reg y = s.reg y := rfl
@[simp] theorem State.slot_setKey (k : Nibble) (p : Bool) (y : Nibble) : (s.setKey k p).slot y = s.slot y := rfl
@[simp] theorem State.byte_setKey (k : Nibble) (p : Bool) (a' : Nat) : (s.setKey k p).byte a' = s.byte a' := rfl
@[simp] theorem State.pixel_setKey (k : Nibble) (p : Bool) (row : Fin 32) (col : Fin 64) : (s.setKey k p).pixel row col = s.pixel row col := rfl

@[simp] theorem State.setFb_v (f : Framebuffer) : (s.setFb f).v = s.v := rfl
@[simp] theorem State.setFb_i (f : Framebuffer) : (s.setFb f).i = s.i := rfl
@[simp] theorem State.setFb_pc (f : Framebuffer) : (s.setFb f).pc = s.pc := rfl
@[simp] theorem State.setFb_stack (f : Framebuffer) : (s.setFb f).stack = s.stack := rfl
@[simp] theorem State.setFb_sp (f : Framebuffer) : (s.setFb f).sp = s.sp := rfl
@[simp] theorem State.setFb_dt (f : Framebuffer) : (s.setFb f).dt = s.dt := rfl
@[simp] theorem State.setFb_st (f : Framebuffer) : (s.setFb f).st = s.st := rfl
@[simp] theorem State.setFb_keys (f : Framebuffer) : (s.setFb f).keys = s.keys := rfl
@[simp] theorem State.setFb_fb (f : Framebuffer) : (s.setFb f).fb = f := rfl
@[simp] theorem State.setFb_dirty (f : Framebuffer) : (s.setFb f).dirty = s.dirty := rfl
@[simp] theorem State.setFb_gateOpen (f : Framebuffer) : (s.setFb f).gateOpen = s.gateOpen := rfl
@[simp] theorem State.setFb_mem (f : Framebuffer) : (s.setFb f).mem = s.mem := rfl
@[simp] theorem State.setFb_draws (f : Framebuffer) : (s.setFb f).draws = s.draws := rfl
@[simp] theorem State.setFb_schedule (f : Framebuffer) : (s.setFb f).schedule = s.schedule := rfl
@[simp] theorem State.setFb_out (f : Framebuffer) : (s.setFb f).out = s.out := rfl
@[simp] theorem State.reg_setFb (f : Framebuffer) (y : Nibble) : (s.setFb f).reg y = s.reg y := rfl
@[simp] theorem State.slot_setFb (f : Framebuffer) (y : Nibble) : (s.setFb f).slot y = s.slot y := rfl
@[simp] theorem State.key_setFb (f : Framebuffer) (y : Nibble) : (s.setFb f).key y = s.key y := rfl
@[simp] theorem State.byte_setFb (f : Framebuffer) (a' : Nat) : (s.setFb f).byte a' = s.byte a' := rfl

@[simp] theorem State.setDirty_v (b : Bool) : (s.setDirty b).v = s.v := rfl
@[simp] theorem State.setDirty_i (b : Bool) : (s.setDirty b).i = s.i := rfl
@[simp] theorem State.setDirty_pc (b : Bool) : (s.setDirty b).pc = s.pc := rfl
@[simp] theorem State.setDirty_stack (b : Bool) : (s.setDirty b).stack = s.stack := rfl
@[simp] theorem State.setDirty_sp (b : Bool) : (s.setDirty b).sp = s.sp := rfl
@[simp] theorem State.setDirty_dt (b : Bool) : (s.setDirty b).dt = s.dt := rfl
@[simp] theorem State.setDirty_st (b : Bool) : (s.setDirty b).st = s.st := rfl
@[simp] theorem State.setDirty_keys (b : Bool) : (s.setDirty b).keys = s.keys := rfl
@[simp] theorem State.setDirty_fb (b : Bool) : (s.setDirty b).fb = s.fb := rfl
@[simp] theorem State.setDirty_dirty (b : Bool) : (s.setDirty b).dirty = b := rfl
@[simp] theorem State.setDirty_gateOpen (b : Bool) : (s.setDirty b).gateOpen = s.gateOpen := rfl
@[simp] theorem State.setDirty_mem (b : Bool) : (s.setDirty b).mem = s.mem := rfl
@[simp] theorem State.setDirty_draws (b : Bool) : (s.setDirty b).draws = s.draws := rfl
@[simp] theorem State.setDirty_schedule (b : Bool) : (s.setDirty b).schedule = s.schedule := rfl
@[simp] theorem State.setDirty_out (b : Bool) : (s.setDirty b).out = s.out := rfl
@[simp] theorem State.reg_setDirty (b : Bool) (y : Nibble) : (s.setDirty b).reg y = s.reg y := rfl
@[simp] theorem State.slot_setDirty (b : Bool) (y : Nibble) : (s.setDirty b).slot y = s.slot y := rfl
@[simp] theorem State.key_setDirty (b : Bool) (y : Nibble) : (s.setDirty b).key y = s.key y := rfl
@[simp] theorem State.byte_setDirty (b : Bool) (a' : Nat) : (s.setDirty b).byte a' = s.byte a' := rfl
@[simp] theorem State.pixel_setDirty (b : Bool) (row : Fin 32) (col : Fin 64) : (s.setDirty b).pixel row col = s.pixel row col := rfl

@[simp] theorem State.setGate_v (b : Bool) : (s.setGate b).v = s.v := rfl
@[simp] theorem State.setGate_i (b : Bool) : (s.setGate b).i = s.i := rfl
@[simp] theorem State.setGate_pc (b : Bool) : (s.setGate b).pc = s.pc := rfl
@[simp] theorem State.setGate_stack (b : Bool) : (s.setGate b).stack = s.stack := rfl
@[simp] theorem State.setGate_sp (b : Bool) : (s.setGate b).sp = s.sp := rfl
@[simp] theorem State.setGate_dt (b : Bool) : (s.setGate b).dt = s.dt := rfl
@[simp] theorem State.setGate_st (b : Bool) : (s.setGate b).st = s.st := rfl
@[simp] theorem State.setGate_keys (b : Bool) : (s.setGate b).keys = s.keys := rfl
@[simp] theorem State.setGate_fb (b : Bool) : (s.setGate b).fb = s.fb := rfl
@[simp] theorem State.setGate_dirty (b : Bool) : (s.setGate b).dirty = s.dirty := rfl
@[simp] theorem State.setGate_gateOpen (b : Bool) : (s.setGate b).gateOpen = b := rfl
@[simp] theorem State.setGate_mem (b : Bool) : (s.setGate b).mem = s.mem := rfl
@[simp] theorem State.setGate_draws (b : Bool) : (s.setGate b).draws = s.draws := rfl
@[simp] theorem State.setGate_schedule (b : Bool) : (s.setGate b).schedule = s.schedule := rfl
@[simp] theorem State.setGate_out (b : Bool) : (s.setGate b).out = s.out := rfl
@[simp] theorem State.reg_setGate (b : Bool) (y : Nibble) : (s.setGate b).reg y = s.reg y := rfl
@[simp] theorem State.slot_setGate (b : Bool) (y : Nibble) : (s.setGate b).slot y = s.slot y := rfl
@[simp] theorem State.key_setGate (b : Bool) (y : Nibble) : (s.setGate b).key y = s.key y := rfl
@[simp] theorem State.byte_setGate (b : Bool) (a' : Nat) : (s.setGate b).byte a' = s.byte a' := rfl
@[simp] theorem State.pixel_setGate (b : Bool) (row : Fin 32) (col : Fin 64) : (s.setGate b).pixel row col = s.pixel row col := rfl

@[simp] theorem State.setMem_v (m : Memory) : (s.setMem m).v = s.v := rfl
@[simp] theorem State.setMem_i (m : Memory) : (s.setMem m).i = s.i := rfl
@[simp] theorem State.setMem_pc (m : Memory) : (s.setMem m).pc = s.pc := rfl
@[simp] theorem State.setMem_stack (m : Memory) : (s.setMem m).stack = s.stack := rfl
@[simp] theorem State.setMem_sp (m : Memory) : (s.setMem m).sp = s.sp := rfl
@[simp] theorem State.setMem_dt (m : Memory) : (s.setMem m).dt = s.dt := rfl
@[simp] theorem State.setMem_st (m : Memory) : (s.setMem m).st = s.st := rfl
@[simp] theorem State.setMem_keys (m : Memory) : (s.setMem m).keys = s.keys := rfl
@[simp] theorem State.setMem_fb (m : Memory) : (s.setMem m).fb = s.fb := rfl
@[simp] theorem State.setMem_dirty (m : Memory) : (s.setMem m).dirty = s.dirty := rfl
@[simp] theorem State.setMem_gateOpen (m : Memory) : (s.setMem m).gateOpen = s.gateOpen := rfl
@[simp] theorem State.setMem_mem (m : Memory) : (s.setMem m).mem = m := rfl
@[simp] theorem State.setMem_draws (m : Memory) : (s.setMem m).draws = s.draws := rfl
@[simp] theorem State.setMem_schedule (m : Memory) : (s.setMem m).schedule = s.schedule := rfl
@[simp] theorem State.setMem_out (m : Memory) : (s.setMem m).out = s.out := rfl
@[simp] theorem State.reg_setMem (m : Memory) (y : Nibble) : (s.setMem m).reg y = s.reg y := rfl
@[simp] theorem State.slot_setMem (m : Memory) (y : Nibble) : (s.setMem m).slot y = s.slot y := rfl
@[simp] theorem State.key_setMem (m : Memory) (y : Nibble) : (s.setMem m).key y = s.key y := rfl
@[simp] theorem State.pixel_setMem (m : Memory) (row : Fin 32) (col : Fin 64) : (s.setMem m).pixel row col = s.pixel row col := rfl

@[simp] theorem State.setDraws_v (n : Nat) : (s.setDraws n).v = s.v := rfl
@[simp] theorem State.setDraws_i (n : Nat) : (s.setDraws n).i = s.i := rfl
@[simp] theorem State.setDraws_pc (n : Nat) : (s.setDraws n).pc = s.pc := rfl
@[simp] theorem State.setDraws_stack (n : Nat) : (s.setDraws n).stack = s.stack := rfl
@[simp] theorem State.setDraws_sp (n : Nat) : (s.setDraws n).sp = s.sp := rfl
@[simp] theorem State.setDraws_dt (n : Nat) : (s.setDraws n).dt = s.dt := rfl
@[simp] theorem State.setDraws_st (n : Nat) : (s.setDraws n).st = s.st := rfl
@[simp] theorem State.setDraws_keys (n : Nat) : (s.setDraws n).keys = s.keys := rfl
@[simp] theorem State.setDraws_fb (n : Nat) : (s.setDraws n).fb = s.fb := rfl
@[simp] theorem State.setDraws_dirty (n : Nat) : (s.setDraws n).dirty = s.dirty := rfl
@[simp] theorem State.setDraws_gateOpen (n : Nat) : (s.setDraws n).gateOpen = s.gateOpen := rfl
@[simp] theorem State.setDraws_mem (n : Nat) : (s.setDraws n).mem = s.mem := rfl
@[simp] theorem State.setDraws_draws (n : Nat) : (s.setDraws n).draws = n := rfl
@[simp] theorem State.setDraws_schedule (n : Nat) : (s.setDraws n).schedule = s.schedule := rfl
@[simp] theorem State.setDraws_out (n : Nat) : (s.setDraws n).out = s.out := rfl
@[simp] theorem State.reg_setDraws (n : Nat) (y : Nibble) : (s.setDraws n).reg y = s.reg y := rfl
@[simp] theorem State.slot_setDraws (n : Nat) (y : Nibble) : (s.setDraws n).slot y = s.slot y := rfl
@[simp] theorem State.key_setDraws (n : Nat) (y : Nibble) : (s.setDraws n).key y = s.key y := rfl
@[simp] theorem State.byte_setDraws (n : Nat) (a' : Nat) : (s.setDraws n).byte a' = s.byte a' := rfl
@[simp] theorem State.pixel_setDraws (n : Nat) (row : Fin 32) (col : Fin 64) : (s.setDraws n).pixel row col = s.pixel row col := rfl

@[simp] theorem State.setSchedule_v (l : List (List HostOp)) : (s.setSchedule l).v = s.v := rfl
@[simp] theorem State.setSchedule_i (l : List (List HostOp)) : (s.setSchedule l).i = s.i := rfl
@[simp] theorem State.setSchedule_pc (l : List (List HostOp)) : (s.setSchedule l).pc = s.pc := rfl
@[simp] theorem State.setSchedule_stack (l : List (List HostOp)) : (s.setSchedule l).stack = s.stack := rfl
@[simp] theorem State.setSchedule_sp (l : List (List HostOp)) : (s.setSchedule l).sp = s.sp := rfl
@[simp] theorem State.setSchedule_dt (l : List (List HostOp)) : (s.setSchedule l).dt = s.dt := rfl
@[simp] theorem State.setSchedule_st (l : List (List HostOp)) : (s.setSchedule l).st = s.st := rfl
@[simp] theorem State.setSchedule_keys (l : List (List HostOp)) : (s.setSchedule l).keys = s.keys := rfl
@[simp] theorem State.setSchedule_fb (l : List (List HostOp)) : (s.setSchedule l).fb = s.fb := rfl
@[simp] theorem State.setSchedule_dirty (l : List (List HostOp)) : (s.setSchedule l).dirty = s.dirty := rfl
@[simp] theorem State.setSchedule_gateOpen (l : List (List HostOp)) : (s.setSchedule l).gateOpen = s.gateOpen := rfl
@[simp] theorem State.setSchedule_mem (l : List (List HostOp)) : (s.setSchedule l).mem = s.mem := rfl
@[simp] theorem State.setSchedule_draws (l : List (List HostOp)) : (s.setSchedule l).draws = s.draws := rfl
@[simp] theorem State.setSchedule_schedule (l : List (List HostOp)) : (s.setSchedule l).schedule = l := rfl
@[simp] theorem State.setSchedule_out (l : List (List HostOp)) : (s.setSchedule l).out = s.out := rfl
@[simp] theorem State.reg_setSchedule (l : List (List HostOp)) (y : Nibble) : (s.setSchedule l).reg y = s.reg y := rfl
@[simp] theorem State.slot_setSchedule (l : List (List HostOp)) (y : Nibble) : (s.setSchedule l).slot y = s.slot y := rfl
@[simp] theorem State.key_setSchedule (l : List (List HostOp)) (y : Nibble) : (s.setSchedule l).key y = s.key y := rfl
@[simp] theorem State.byte_setSchedule (l : List (List HostOp)) (a' : Nat) : (s.setSchedule l).byte a' = s.byte a' := rfl
@[simp] theorem State.pixel_setSchedule (l : List (List HostOp)) (row : Fin 32) (col : Fin 64) : (s.setSchedule l).pixel row col = s.pixel row col := rfl

@[simp] theorem State.setOut_v (o : Outputs) : (s.setOut o).v = s.v := rfl
@[simp] theorem State.setOut_i (o : Outputs) : (s.setOut o).i = s.i := rfl
@[simp] theorem State.setOut_pc (o : Outputs) : (s.setOut o).pc = s.pc := rfl
@[simp] theorem State.setOut_stack (o : Outputs) : (s.setOut o).stack = s.stack := rfl
@[simp] theorem State.setOut_sp (o : Outputs) : (s.setOut o).sp = s.sp := rfl
@[simp] theorem State.setOut_dt (o : Outputs) : (s.setOut o).dt = s.dt := rfl
@[simp] theorem State.setOut_st (o : Outputs) : (s.setOut o).st = s.st := rfl
@[simp] theorem State.setOut_keys (o : Outputs) : (s.setOut o).keys = s.keys := rfl
@[simp] theorem State.setOut_fb (o : Outputs) : (s.setOut o).fb = s.fb := rfl
@[simp] theorem State.setOut_dirty (o : Outputs) : (s.setOut o).dirty = s.dirty := rfl
@[simp] theorem State.setOut_gateOpen (o : Outputs) : (s.setOut o).gateOpen = s.gateOpen := rfl
@[simp] theorem State.setOut_mem (o : Outputs) : (s.setOut o).mem = s.mem := rfl
@[simp] theorem State.setOut_draws (o : Outputs) : (s.setOut o).draws = s.draws := rfl
@[simp] theorem State.setOut_schedule (o : Outputs) : (s.setOut o).schedule = s.schedule := rfl
@[simp] theorem State.setOut_out (o : Outputs) : (s.setOut o).out = o := rfl
@[simp] theorem State.reg_setOut (o : Outputs) (y : Nibble) : (s.setOut o).reg y = s.reg y := rfl
@[simp] theorem State.slot_setOut (o : Outputs) (y : Nibble) : (s.setOut o).slot y = s.slot y := rfl
@[simp] theorem State.key_setOut (o : Outputs) (y : Nibble) : (s.setOut o).key y = s.key y := rfl
@[simp] theorem State.byte_setOut (o : Outputs) (a' : Nat) : (s.setOut o).byte a' = s.byte a' := rfl
@[simp] theorem State.pixel_setOut (o : Outputs) (row : Fin 32) (col : Fin 64) : (s.setOut o).pixel row col = s.pixel row col := rfl

@[simp] theorem State.advance_v : s.advance.v = s.v := rfl
@[simp] theorem State.advance_i : s.advance.i = s.i := rfl
@[simp] theorem State.advance_pc : s.advance.pc = s.pc + 2 := rfl
@[simp] theorem State.advance_stack : s.advance.stack = s.stack := rfl
@[simp] theorem State.advance_sp : s.advance.sp = s.sp := rfl
@[simp] theorem State.advance_dt : s.advance.dt = s.dt := rfl
@[simp] theorem State.advance_st : s.advance.st = s.st := rfl
@[simp] theorem State.advance_keys : s.advance.keys = s.keys := rfl
@[simp] theorem State.advance_fb : s.advance.fb = s.fb := rfl
@[simp] theorem State.advance_dirty : s.advance.dirty = s.dirty := rfl
@[simp] theorem State.advance_gateOpen : s.advance.gateOpen = s.gateOpen := rfl
@[simp] theorem State.advance_mem : s.advance.mem = s.mem := rfl
@[simp] theorem State.advance_draws : s.advance.draws = s.draws := rfl
@[simp] theorem State.advance_schedule : s.advance.schedule = s.schedule := rfl
@[simp] theorem State.advance_out : s.advance.out = s.out := rfl
@[simp] theorem State.reg_advance (y : Nibble) : s.advance.reg y = s.reg y := rfl
@[simp] theorem State.slot_advance (y : Nibble) : s.advance.slot y = s.slot y := rfl
@[simp] theorem State.key_advance (y : Nibble) : s.advance.key y = s.key y := rfl
@[simp] theorem State.byte_advance (a' : Nat) : s.advance.byte a' = s.byte a' := rfl
@[simp] theorem State.pixel_advance (row : Fin 32) (col : Fin 64) : s.advance.pixel row col = s.pixel row col := rfl

@[simp] theorem State.raise_v (r : Report) : (s.raise r).v = s.v := rfl
@[simp] theorem State.raise_i (r : Report) : (s.raise r).i = s.i := rfl
@[simp] theorem State.raise_pc (r : Report) : (s.raise r).pc = s.pc := rfl
@[simp] theorem State.raise_stack (r : Report) : (s.raise r).stack = s.stack := rfl
@[simp] theorem State.raise_sp (r : Report) : (s.raise r).sp = s.sp := rfl
@[simp] theorem State.raise_dt (r : Report) : (s.raise r).dt = s.dt := rfl
@[simp] theorem State.raise_st (r : Report) : (s.raise r).st = s.st := rfl
@[simp] theorem State.raise_keys (r : Report) : (s.raise r).keys = s.keys := rfl
@[simp] theorem State.raise_fb (r : Report) : (s.raise r).fb = s.fb := rfl
@[simp] theorem State.raise_dirty (r : Report) : (s.raise r).dirty = s.dirty := rfl
@[simp] theorem State.raise_gateOpen (r : Report) : (s.raise r).gateOpen = s.gateOpen := rfl
@[simp] theorem State.raise_mem (r : Report) : (s.raise r).mem = s.mem := rfl
@[simp] theorem State.raise_draws (r : Report) : (s.raise r).draws = s.draws := rfl
@[simp] theorem State.raise_schedule (r : Report) : (s.raise r).schedule = s.schedule := rfl
@[simp] theorem State.raise_out (r : Report) : (s.raise r).out = { s.out with report := some r, everReported := true } := rfl
@[simp] theorem State.reg_raise (r : Report) (y : Nibble) : (s.raise r).reg y = s.reg y := rfl
@[simp] theorem State.slot_raise (r : Report) (y : Nibble) : (s.raise r).slot y = s.slot y := rfl
@[simp] theorem State.key_raise (r : Report) (y : Nibble) : (s.raise r).key y = s.key y := rfl
@[simp] theorem State.byte_raise (r : Report) (a' : Nat) : (s.raise r).byte a' = s.byte a' := rfl
@[simp] theorem State.pixel_raise (r : Report) (row : Fin 32) (col : Fin 64) : (s.raise r).pixel row col = s.pixel row col := rfl

@[simp] theorem State.skipIf_v (c : Bool) : (s.skipIf c).v = s.v := by cases c <;> rfl
@[simp] theorem State.skipIf_i (c : Bool) : (s.skipIf c).i = s.i := by cases c <;> rfl
@[simp] theorem State.skipIf_pc (c : Bool) : (s.skipIf c).pc = if c then s.pc + 4 else s.pc + 2 := by
  cases c <;> rfl
@[simp] theorem State.skipIf_stack (c : Bool) : (s.skipIf c).stack = s.stack := by cases c <;> rfl
@[simp] theorem State.skipIf_sp (c : Bool) : (s.skipIf c).sp = s.sp := by cases c <;> rfl
@[simp] theorem State.skipIf_dt (c : Bool) : (s.skipIf c).dt = s.dt := by cases c <;> rfl
@[simp] theorem State.skipIf_st (c : Bool) : (s.skipIf c).st = s.st := by cases c <;> rfl
@[simp] theorem State.skipIf_keys (c : Bool) : (s.skipIf c).keys = s.keys := by cases c <;> rfl
@[simp] theorem State.skipIf_fb (c : Bool) : (s.skipIf c).fb = s.fb := by cases c <;> rfl
@[simp] theorem State.skipIf_dirty (c : Bool) : (s.skipIf c).dirty = s.dirty := by cases c <;> rfl
@[simp] theorem State.skipIf_gateOpen (c : Bool) : (s.skipIf c).gateOpen = s.gateOpen := by cases c <;> rfl
@[simp] theorem State.skipIf_mem (c : Bool) : (s.skipIf c).mem = s.mem := by cases c <;> rfl
@[simp] theorem State.skipIf_draws (c : Bool) : (s.skipIf c).draws = s.draws := by cases c <;> rfl
@[simp] theorem State.skipIf_schedule (c : Bool) : (s.skipIf c).schedule = s.schedule := by cases c <;> rfl
@[simp] theorem State.skipIf_out (c : Bool) : (s.skipIf c).out = s.out := by cases c <;> rfl
@[simp] theorem State.reg_skipIf (c : Bool) (y : Nibble) : (s.skipIf c).reg y = s.reg y := by cases c <;> rfl
@[simp] theorem State.slot_skipIf (c : Bool) (y : Nibble) : (s.skipIf c).slot y = s.slot y := by cases c <;> rfl
@[simp] theorem State.key_skipIf (c : Bool) (y : Nibble) : (s.skipIf c).key y = s.key y := by cases c <;> rfl
@[simp] theorem State.byte_skipIf (c : Bool) (a' : Nat) : (s.skipIf c).byte a' = s.byte a' := by cases c <;> rfl
@[simp] theorem State.pixel_skipIf (c : Bool) (row : Fin 32) (col : Fin 64) :
    (s.skipIf c).pixel row col = s.pixel row col := by cases c <;> rfl

/-! The accessors of what an update writes. -/

@[simp] theorem State.reg_setReg (x y : Nibble) (b : Byte) :
    (s.setReg x b).reg y = if y = x then b else s.reg y := by
  simp [State.reg, State.setReg, Vector.getElem_set, BitVec.toNat_inj, eq_comm]

@[simp] theorem State.reg_setRegFlag (x y : Nibble) (b f : Byte) :
    (s.setRegFlag x b f).reg y = if y = vf then f else if y = x then b else s.reg y := by
  simp [State.setRegFlag]

@[simp] theorem State.reg_setRegs (bs : List Byte) (y : Nibble) :
    (s.setRegs bs).reg y = (bs[y.toNat]?).getD (s.reg y) := by
  simp [State.reg, State.setRegs]

@[simp] theorem State.slot_setSlot (j k : Nibble) (w : Word) :
    (s.setSlot j w).slot k = if k = j then w else s.slot k := by
  simp [State.slot, State.setSlot, Vector.getElem_set, BitVec.toNat_inj, eq_comm]

@[simp] theorem State.key_setKey (j k : Nibble) (p : Bool) :
    (s.setKey j p).key k = if k = j then p else s.key k := by
  simp [State.key, State.setKey, Vector.getElem_set, BitVec.toNat_inj, eq_comm]

@[simp] theorem State.pixel_setFb (f : Framebuffer) (row : Fin 32) (col : Fin 64) :
    (s.setFb f).pixel row col = f[row][col] := rfl

@[simp] theorem State.byte_setMem (m : Memory) (a : Nat) : (s.setMem m).byte a = m.read a := rfl

@[simp] theorem State.setRegFlag_i (x : Nibble) (b g : Byte) : (s.setRegFlag x b g).i = s.i := rfl
@[simp] theorem State.setRegFlag_pc (x : Nibble) (b g : Byte) : (s.setRegFlag x b g).pc = s.pc := rfl
@[simp] theorem State.setRegFlag_stack (x : Nibble) (b g : Byte) : (s.setRegFlag x b g).stack = s.stack := rfl
@[simp] theorem State.setRegFlag_sp (x : Nibble) (b g : Byte) : (s.setRegFlag x b g).sp = s.sp := rfl
@[simp] theorem State.setRegFlag_dt (x : Nibble) (b g : Byte) : (s.setRegFlag x b g).dt = s.dt := rfl
@[simp] theorem State.setRegFlag_st (x : Nibble) (b g : Byte) : (s.setRegFlag x b g).st = s.st := rfl
@[simp] theorem State.setRegFlag_keys (x : Nibble) (b g : Byte) : (s.setRegFlag x b g).keys = s.keys := rfl
@[simp] theorem State.setRegFlag_fb (x : Nibble) (b g : Byte) : (s.setRegFlag x b g).fb = s.fb := rfl
@[simp] theorem State.setRegFlag_dirty (x : Nibble) (b g : Byte) : (s.setRegFlag x b g).dirty = s.dirty := rfl
@[simp] theorem State.setRegFlag_gateOpen (x : Nibble) (b g : Byte) : (s.setRegFlag x b g).gateOpen = s.gateOpen := rfl
@[simp] theorem State.setRegFlag_mem (x : Nibble) (b g : Byte) : (s.setRegFlag x b g).mem = s.mem := rfl
@[simp] theorem State.setRegFlag_draws (x : Nibble) (b g : Byte) : (s.setRegFlag x b g).draws = s.draws := rfl
@[simp] theorem State.setRegFlag_schedule (x : Nibble) (b g : Byte) : (s.setRegFlag x b g).schedule = s.schedule := rfl
@[simp] theorem State.setRegFlag_out (x : Nibble) (b g : Byte) : (s.setRegFlag x b g).out = s.out := rfl
@[simp] theorem State.slot_setRegFlag (x : Nibble) (b g : Byte) (y : Nibble) : (s.setRegFlag x b g).slot y = s.slot y := rfl
@[simp] theorem State.key_setRegFlag (x : Nibble) (b g : Byte) (y : Nibble) : (s.setRegFlag x b g).key y = s.key y := rfl
@[simp] theorem State.byte_setRegFlag (x : Nibble) (b g : Byte) (a' : Nat) : (s.setRegFlag x b g).byte a' = s.byte a' := rfl
@[simp] theorem State.pixel_setRegFlag (x : Nibble) (b g : Byte) (row : Fin 32) (col : Fin 64) :
    (s.setRegFlag x b g).pixel row col = s.pixel row col := rfl

end Sys2Proof.Machine
end

