-- ==== Sys2Proof/Laws/Memory.lean ====
section
/-! SUPPORT. Memory: a read after a write, and the canonical form kept; what the block operations answer. -/

namespace Sys2Proof.Machine

theorem Memory.read_cons (c : Host.Cell) (m : Memory) (a : Nat) :
    Memory.read (c :: m) a = if c.1 = a then c.2 else Memory.read m a := by
  by_cases h : c.1 = a <;> simp [Memory.read, h]

@[simp] theorem Memory.read_nil (a : Nat) : Memory.read [] a = Memory.unlisted a := rfl

theorem Memory.read_erase (m : Memory) (a c : Nat) :
    (m.erase a).read c = if c = a then Memory.unlisted c else m.read c := by
  induction m with
  | nil => simp [Memory.erase]
  | cons d m ih =>
    unfold Memory.erase at ih ⊢
    by_cases hd : d.1 = a
    · simp only [List.filter_cons, hd, bne_self_eq_false, Bool.false_eq_true, if_false, ih, Memory.read_cons]
      split <;> rename_i h
      · rfl
      · rw [if_neg (fun e => h e.symm)]
    · simp only [List.filter_cons, bne_iff_ne, ne_eq, hd, not_false_eq_true, if_true, Memory.read_cons, ih]
      by_cases hc : d.1 = c
      · simp [hc, show ¬ c = a from fun e => hd (hc.trans e)]
      · simp [hc]

theorem Memory.read_insert (a : Nat) (b : Byte) (m : Memory) (c : Nat) (fresh : ∀ d ∈ m, d.1 ≠ a) :
    (Memory.insert a b m).read c = if c = a then b else m.read c := by
  induction m with
  | nil => simp [Memory.insert, Memory.read_cons, eq_comm]
  | cons d m ih =>
    have hd : d.1 ≠ a := fresh d (by simp)
    unfold Memory.insert
    split
    · simp [Memory.read_cons, eq_comm]
    · rw [Memory.read_cons, ih (fun e he => fresh e (by simp [he])), Memory.read_cons]
      by_cases hc : d.1 = c
      · simp [hc, show ¬ c = a from fun e => hd (hc.trans e)]
      · simp [hc]

theorem Memory.erase_fresh (m : Memory) (a : Nat) : ∀ d ∈ m.erase a, d.1 ≠ a := by
  simp [Memory.erase]

/-- A read after a write: the byte written at its address, every other address as before. -/
@[simp] theorem Memory.read_write (m : Memory) (a : Nat) (b : Byte) (c : Nat) :
    (m.write a b).read c = if c = a then b else m.read c := by
  unfold Memory.write
  split
  · subst b
    rw [Memory.read_erase]
    split
    · simp [*]
    · rfl
  · rw [Memory.read_insert _ _ _ _ (Memory.erase_fresh m a), Memory.read_erase]
    split <;> rfl

/-- A read after a block write. -/
theorem Memory.read_writeBytes (m : Memory) (a : Nat) (bs : List Byte) (c : Nat) :
    (m.writeBytes a bs).read c = if h : a ≤ c ∧ c < a + bs.length then bs[c - a]'(by omega) else m.read c := by
  induction bs generalizing m a with
  | nil => simp [Memory.writeBytes, show ¬ (a ≤ c ∧ c < a) by omega]
  | cons b bs ih =>
    simp only [Memory.writeBytes, ih, Memory.read_write, List.length_cons]
    by_cases h1 : a + 1 ≤ c ∧ c < a + 1 + bs.length
    · rw [dif_pos h1, dif_pos (by omega)]
      rw [List.getElem_cons]
      simp only [show ¬ c - a = 0 by omega, dite_false, show c - a - 1 = c - (a + 1) by omega]
    · rw [dif_neg h1]
      by_cases h2 : c = a
      · subst h2; simp
      · simp [h2, show ¬ (a ≤ c ∧ c < a + (bs.length + 1)) by omega]

theorem Memory.read_writeBytes_outside (m : Memory) (a : Nat) (bs : List Byte) (c : Nat)
    (h : c < a ∨ a + bs.length ≤ c) : (m.writeBytes a bs).read c = m.read c := by
  rw [Memory.read_writeBytes, dif_neg (by omega)]

theorem Memory.read_writeBytes_inside (m : Memory) (a : Nat) (bs : List Byte) (k : Nat) (h : k < bs.length) :
    (m.writeBytes a bs).read (a + k) = bs[k] := by
  rw [Memory.read_writeBytes, dif_pos (by omega)]
  simp

/-! The canonical form. -/

theorem Memory.wf_iff (m : Memory) :
    m.wf = true ↔ m.Pairwise (fun c d => c.1 < d.1) ∧ ∀ c ∈ m, c.1 < 4096 ∧ c.2 ≠ Memory.unlisted c.1 := by
  simp [Memory.wf]

theorem Memory.wf_nil : Memory.wf [] = true := rfl

theorem Memory.wf_erase (m : Memory) (a : Nat) (h : m.wf = true) : (m.erase a).wf = true := by
  rw [Memory.wf_iff] at h ⊢
  exact ⟨h.1.filter _, fun c hc => h.2 c (List.mem_of_mem_filter hc)⟩

theorem Memory.mem_insert (a : Nat) (b : Byte) (m : Memory) (c : Host.Cell) :
    c ∈ Memory.insert a b m ↔ c = (a, b) ∨ c ∈ m := by
  induction m with
  | nil => simp [Memory.insert]
  | cons d m ih =>
    unfold Memory.insert
    split
    · simp
    · simp only [List.mem_cons, ih]; tauto

theorem Memory.insert_sorted (a : Nat) (b : Byte) (m : Memory) (h : m.Pairwise (fun c d => c.1 < d.1))
    (fresh : ∀ d ∈ m, d.1 ≠ a) : (Memory.insert a b m).Pairwise (fun c d => c.1 < d.1) := by
  induction m with
  | nil => simp [Memory.insert]
  | cons d m ih =>
    have hd := List.pairwise_cons.1 h
    unfold Memory.insert
    split
    · rename_i hlt
      refine List.pairwise_cons.2 ⟨fun e he => ?_, h⟩
      rcases List.mem_cons.1 he with rfl | he
      · exact hlt
      · exact lt_trans hlt (hd.1 e he)
    · rename_i hge
      refine List.pairwise_cons.2 ⟨fun e he => ?_, ih hd.2 (fun e he => fresh e (by simp [he]))⟩
      rcases (Memory.mem_insert a b m e).1 he with rfl | he
      · have := fresh d (by simp)
        simp only; omega
      · exact hd.1 e he

/-- A write inside the address space keeps the canonical form. -/
theorem Memory.wf_write (m : Memory) (a : Nat) (b : Byte) (h : m.wf = true) (ha : a < 4096) :
    (m.write a b).wf = true := by
  unfold Memory.write
  split
  · exact m.wf_erase a h
  · rename_i hb
    have he := (Memory.wf_iff _).1 (m.wf_erase a h)
    rw [Memory.wf_iff]
    refine ⟨Memory.insert_sorted _ _ _ he.1 (m.erase_fresh a), fun c hc => ?_⟩
    rcases (Memory.mem_insert _ _ _ _).1 hc with rfl | hc
    · exact ⟨ha, hb⟩
    · exact he.2 c hc

/-- A block write inside the address space keeps the canonical form. -/
theorem Memory.wf_writeBytes (m : Memory) (a : Nat) (bs : List Byte) (h : m.wf = true)
    (ha : bs = [] ∨ a + bs.length ≤ 4096) : (m.writeBytes a bs).wf = true := by
  induction bs generalizing m a with
  | nil => exact h
  | cons b bs ih =>
    have hl : a + (bs.length + 1) ≤ 4096 := by simpa using ha
    exact ih _ _ (m.wf_write a b h (by omega)) (Or.inr (by omega))

/-! The block operations of the state. -/

theorem blockInBounds_iff (a n : Nat) : blockInBounds a n = true ↔ n = 0 ∨ a + n ≤ 4096 := by
  simp [blockInBounds]

/-- What `readBlock` answers where the block exists. -/
theorem State.readBlock_eq_some (s : State) (a n : Nat) (h : n = 0 ∨ a + n ≤ 4096) :
    s.readBlock a n = some ((List.range n).map fun k => s.byte (a + k)) := by
  rw [State.readBlock, if_pos ((blockInBounds_iff a n).2 h)]

/-- `readBlock` answers none exactly where a byte of the block does not exist. -/
theorem State.readBlock_eq_none (s : State) (a n : Nat) : s.readBlock a n = none ↔ n ≠ 0 ∧ 4096 < a + n := by
  rw [State.readBlock, ite_eq_right_iff, blockInBounds_iff]
  simp only [reduceCtorEq, imp_false]
  omega

/-- What `writeBlock` answers where the block exists. -/
theorem State.writeBlock_eq_some (s : State) (a : Nat) (bs : List Byte) (h : bs.length = 0 ∨ a + bs.length ≤ 4096) :
    s.writeBlock a bs = some (s.setMem (s.mem.writeBytes a bs)) := by
  rw [State.writeBlock, if_pos ((blockInBounds_iff a bs.length).2 h)]

/-- `writeBlock` answers none exactly where a byte of the block does not exist. -/
theorem State.writeBlock_eq_none (s : State) (a : Nat) (bs : List Byte) :
    s.writeBlock a bs = none ↔ bs.length ≠ 0 ∧ 4096 < a + bs.length := by
  rw [State.writeBlock, ite_eq_right_iff, blockInBounds_iff]
  simp only [reduceCtorEq, imp_false]
  omega

end Sys2Proof.Machine
end

