-- ==== Sys2Proof/Laws/Ops.lean ====
section
/-! SUPPORT. What each shared operation can do, said once. -/

namespace Sys2Proof.Machine

/-! Equality of outcomes. -/

@[simp] theorem done_eq_next (s t : State) : done s = .next t ↔ s = t := by simp [done]

@[simp] theorem raised_eq_next (s t : State) (r : Report) : raised s r = .next t ↔ s.raise r = t := by simp [raised]

/-! The operand forms. -/

/-- `keyOperand` answers the key of the same number, and none exactly above 15 (R114). -/
theorem keyOperand_eq_some (s : State) (x k : Nibble) (h : (s.reg x).toNat = k.toNat) :
    keyOperand s x = some k := by
  have hk := k.isLt
  rw [keyOperand, if_pos (by omega), h]
  simp

theorem keyOperand_eq_none (s : State) (x : Nibble) (h : 15 < (s.reg x).toNat) : keyOperand s x = none := by
  rw [keyOperand, if_neg (by omega)]

theorem mem_allKeys (k : Nibble) : k ∈ (List.range 16).map (BitVec.ofNat 4) := by
  simp only [List.mem_map, List.mem_range]
  exact ⟨k.toNat, k.isLt, by simp⟩

/-- The least pressed key (R161). -/
theorem leastKey_eq_some (s : State) (k : Nibble) (hk : s.key k = true)
    (low : ∀ j : Nibble, j.toNat < k.toNat → s.key j = false) : leastKey s = some k := by
  have split : ∀ k : Nibble, (List.range 16).map (BitVec.ofNat 4) =
      (List.range k.toNat).map (BitVec.ofNat 4) ++
        k :: (List.range' (k.toNat + 1) (15 - k.toNat)).map (BitVec.ofNat 4) := by
    decide
  rw [leastKey, split k, List.find?_append, List.find?_eq_none.2, Option.none_or, List.find?_cons_of_pos hk]
  intro j hj
  obtain ⟨n, hn, rfl⟩ := List.mem_map.1 hj
  have hn := List.mem_range.1 hn
  have := k.isLt
  rw [low _ (by simp only [BitVec.toNat_ofNat]; omega)]
  simp

theorem leastKey_eq_none (s : State) (h : ∀ k : Nibble, s.key k = false) : leastKey s = none := by
  rw [leastKey, List.find?_eq_none]
  intro k _
  simp [h k]

/-- A key that `leastKey` answers is pressed. -/
theorem leastKey_pressed (s : State) (k : Nibble) (h : leastKey s = some k) : s.key k = true :=
  List.find?_some h

/-! The registers moved by Fx55 and Fx65. -/

@[simp] theorem State.length_regsUpTo (s : State) (x : Nibble) : (s.regsUpTo x).length = x.toNat + 1 := by
  have := x.isLt
  simp only [State.regsUpTo, List.length_take, Vector.length_toList]
  omega

theorem State.getElem_regsUpTo (s : State) (x k : Nibble) (h : k.toNat ≤ x.toNat) :
    (s.regsUpTo x)[k.toNat]'(by simp; omega) = s.reg k := by
  simp [State.regsUpTo, State.reg]

/-! The flags. -/

theorem flagByte_toNat (b : Bool) : (flagByte b).toNat = if b = true then 1 else 0 := by cases b <;> rfl

theorem flagByte_zero_or_one (b : Bool) : flagByte b = 0 ∨ flagByte b = 1 := by cases b <;> simp [flagByte]

theorem carryFlag_toNat (a b : Byte) : (carryFlag a b).toNat = if a.toNat + b.toNat > 255 then 1 else 0 := by
  simp [carryFlag, flagByte_toNat]

theorem greaterFlag_toNat (a b : Byte) : (greaterFlag a b).toNat = if a.toNat > b.toNat then 1 else 0 := by
  simp [greaterFlag, flagByte_toNat]

theorem lowBitFlag_toNat (a : Byte) : (lowBitFlag a).toNat = a.toNat % 2 := by
  rw [lowBitFlag, flagByte_toNat, BitVec.getLsbD, Nat.testBit_zero]
  simp only [decide_eq_true_eq]
  split <;> omega

theorem highBitFlag_toNat (a : Byte) : (highBitFlag a).toNat = a.toNat / 128 := by
  have := a.isLt
  rw [highBitFlag, flagByte_toNat, BitVec.getLsbD, Nat.testBit_eq_decide_div_mod_eq]
  simp only [decide_eq_true_eq]
  split <;> omega

/-- The destination of a flag-defining instruction holds the result unless it is `VF` (R121). -/
theorem State.reg_setRegFlag_result (s : State) (x : Nibble) (b f : Byte) (h : x ≠ vf) :
    (s.setRegFlag x b f).reg x = b := by
  simp [h]

/-- `VF` holds the flag, also when it is the destination (R121). -/
theorem State.reg_setRegFlag_vf (s : State) (x : Nibble) (b f : Byte) : (s.setRegFlag x b f).reg vf = f := by
  simp

/-! The decimal digits (R143). -/

/-- `V0` to `Vx`, register by register. -/
theorem State.regsUpTo_eq_map (s : State) (x : Nibble) :
    s.regsUpTo x = (List.range (x.toNat + 1)).map fun k => s.reg (BitVec.ofNat 4 k) := by
  apply List.ext_getElem
  · simp
  · intro n h1 _
    have hx := x.isLt
    have hn : n ≤ x.toNat := by simp at h1; omega
    have h := s.getElem_regsUpTo x (BitVec.ofNat 4 n) (by simp; omega)
    simp only [BitVec.toNat_ofNat, Nat.mod_eq_of_lt (show n < 2 ^ 4 by omega)] at h
    simp [h]

/-- A byte after a block is written (R46, R52): the written one where there is one, else the old one. -/
theorem State.byte_writeBytes (s : State) (base : Nat) (bytes : List Byte) (a : Nat) :
    (s.mem.writeBytes base bytes).read a = storedOver s base bytes a := by
  rw [Memory.read_writeBytes, storedOver, State.byte]
  by_cases h : base ≤ a
  · rw [if_pos h]
    by_cases hl : a < base + bytes.length
    · rw [dif_pos ⟨h, hl⟩, List.getElem?_eq_getElem (by omega), Option.getD_some]
    · rw [dif_neg (by omega), List.getElem?_eq_none (by omega), Option.getD_none]
  · rw [dif_neg (by omega), if_neg h]

@[simp] theorem length_decimalDigits (b : Byte) : (decimalDigits b).length = 3 := rfl

/-! The countdown (R87). -/

theorem countDown_toNat (b : Byte) : (countDown b).toNat = b.toNat - 1 := by
  unfold countDown
  split
  · subst b; rfl
  · rename_i h
    have : b.toNat ≠ 0 := fun e => h (BitVec.eq_of_toNat_eq e)
    rw [BitVec.toNat_sub_of_le (by simp [BitVec.le_def]; omega)]
    rfl

/-! Frames. -/

theorem SameBut.refl (ps : List Part) (s : State) : SameBut ps s s := by
  constructor <;> intros <;> rfl

/-- Raising a report changes the outputs and nothing else. -/
theorem SameBut.raise (s : State) (r : Report) : SameBut [.outputs] s (s.raise r) := by
  constructor <;> simp

theorem mem_byteParts (a n c : Nat) : Part.byte c ∈ byteParts a n ↔ a ≤ c ∧ c < a + n := by
  simp only [byteParts, List.mem_map, List.mem_range, Part.byte.injEq]
  constructor
  · rintro ⟨k, hk, rfl⟩; omega
  · rintro h; exact ⟨c - a, by omega, by omega⟩

theorem mem_regPartsUpTo (x k : Nibble) : Part.reg k ∈ regPartsUpTo x ↔ k.toNat ≤ x.toNat := by
  simp only [regPartsUpTo, regCount, List.mem_map, List.mem_range, Part.reg.injEq]
  constructor
  · rintro ⟨n, hn, rfl⟩
    have := x.isLt
    simp only [BitVec.toNat_ofNat]
    omega
  · intro h
    exact ⟨k.toNat, by omega, by simp⟩

/-! The driver's moves. -/

/-- What the driver's moves can do (R197): none of them touches the permanent mark, the draws or the schedule. -/
theorem hostOp_keeps_own (op : HostOp) (s t : State) (h : hostOp op s = .next t) :
    t.out.everReported = s.out.everReported ∧ t.out.result = s.out.result ∧ t.draws = s.draws ∧
      t.schedule = s.schedule := by
  cases op <;> simp only [hostOp] at h
  case setKey => split at h <;> cases h; exact ⟨rfl, rfl, rfl, rfl⟩
  case loadProgram => cases h; unfold hostLoadProgram; split <;> exact ⟨rfl, rfl, rfl, rfl⟩
  all_goals cases h; exact ⟨rfl, rfl, rfl, rfl⟩

/-- A property that every move keeps holds after the driver's moves. -/
theorem hostOps_induct {P : State → Prop} (keep : ∀ op s t, P s → hostOp op s = .next t → P t) (ops : List HostOp) :
    ∀ s t, P s → hostOps ops s = .next t → P t := by
  induction ops with
  | nil => intro s t hs h; cases h; exact hs
  | cons op ops ih =>
    intro s t hs h
    rw [hostOps] at h
    split at h
    · rename_i u hu
      exact ih u t (keep op s u hs hu) h
    · cases h
    · cases h

/-- A property that every move keeps, and that does not look at the schedule, holds after the driver's turn. -/
theorem driverTurn_induct {P : State → Prop} (keep : ∀ op s t, P s → hostOp op s = .next t → P t)
    (sched : ∀ s l, P s → P (s.setSchedule l)) (s t : State) (hs : P s) (h : driverTurn s = .next t) : P t :=
  hostOps_induct keep _ _ _ (sched _ _ hs) h

/-! The step. -/

/-- Everything a step that answers a state can do (R82): after the driver's turn it is gated, or it fetches nothing,
or it fetches a word that is no instruction, or it runs the instruction it decodes. -/
theorem step_cases {s t : State} (h : step s = .next t) : ∃ u, driverTurn s = .next u ∧
    ((u.gateOpen = false ∧ t = gatedStep u) ∨
     (u.gateOpen = true ∧
      ((fetch u = none ∧ t = endStep none ((beginStep u).raise .fetchBounds)) ∨
       (∃ w, fetch u = some w ∧
         ((∃ w', decode w = .invalidOpcode w' ∧ t = endStep (some w) ((beginStep u).raise (.invalidOpcode w'))) ∨
          (∃ i z, decode w = .instr i ∧ exec i (beginStep u) = .next z ∧ t = endStep (some w) z)))))) := by
  rw [step, cycle] at h
  split at h
  case h_2 => cases h
  case h_3 => cases h
  rename_i u hu
  refine ⟨u, hu, ?_⟩
  rw [machineStep] at h
  split at h
  case isFalse hg => exact Or.inl ⟨by simpa using hg, by cases h; rfl⟩
  rename_i hg
  refine Or.inr ⟨hg, ?_⟩
  rw [executedStep, show fetch (beginStep u) = fetch u from rfl] at h
  split at h
  · rename_i hf
    exact Or.inl ⟨hf, by cases h; rfl⟩
  · rename_i w hf
    refine Or.inr ⟨w, hf, ?_⟩
    split at h
    · rename_i i hi
      cases hx : exec i (beginStep u) with
      | next z => rw [hx] at h; cases h; exact Or.inr ⟨i, z, hi, hx, rfl⟩
      | fault r => rw [hx] at h; cases h
      | refused r => rw [hx] at h; cases h
    · rename_i w' hi
      exact Or.inl ⟨w', hi, by cases h; rfl⟩

/-- A step whose gate is open after the driver's turn is an executed step (R82). -/
theorem step_of_open {s u : State} (hu : driverTurn s = .next u) (hg : u.gateOpen = true) :
    step s = executedStep exec (beginStep u) := by
  rw [step, cycle, hu]
  simp [machineStep, hg]

end Sys2Proof.Machine
end

