-- ==== Sys2Proof/Laws/Display.lean ====
section
/-! SUPPORT. The blitter (45_display.md): what toggling a list of pixels does, and which pixels a sprite sets. -/

namespace Sys2Proof.Machine

theorem togglePixel_pixel (d : Framebuffer × Bool) (p : Fin 32 × Fin 64) (row : Fin 32) (col : Fin 64) :
    (togglePixel d p).1[row][col] = if (row, col) = p then !d.1[row][col] else d.1[row][col] := by
  obtain ⟨r, c⟩ := p
  simp only [togglePixel, Prod.mk.injEq]
  by_cases hr : row = r
  · subst hr
    by_cases hc : col = c
    · subst hc; simp
    · have : ¬ c.val = col.val := fun e => hc (Fin.ext e.symm)
      simp [hc, this]
  · have : ¬ r.val = row.val := fun e => hr (Fin.ext e.symm)
    simp [hr, this]

theorem foldl_togglePixel (l : List (Fin 32 × Fin 64)) (nodup : l.Nodup) (d : Framebuffer × Bool) :
    (∀ row col, (l.foldl togglePixel d).1[row][col] =
      if (row, col) ∈ l then !d.1[row][col] else d.1[row][col]) ∧
    ((l.foldl togglePixel d).2 = true ↔ d.2 = true ∨ ∃ p ∈ l, d.1[p.1][p.2] = true) := by
  induction l generalizing d with
  | nil => simp
  | cons p l ih =>
    have ⟨hp, hl⟩ := List.nodup_cons.1 nodup
    obtain ⟨ih1, ih2⟩ := ih hl (togglePixel d p)
    rw [List.foldl_cons]
    constructor
    · intro row col
      rw [ih1, togglePixel_pixel]
      by_cases h : (row, col) = p
      · rw [if_neg (h ▸ hp), if_pos h, if_pos (by simp [h])]
      · rw [if_neg h]
        simp [h]
    · rw [ih2]
      have head : (togglePixel d p).2 = true ↔ d.2 = true ∨ d.1[p.1][p.2] = true := by simp [togglePixel]
      have tail : (∃ q ∈ l, (togglePixel d p).1[q.1][q.2] = true) ↔ ∃ q ∈ l, d.1[q.1][q.2] = true := by
        refine exists_congr fun q => and_congr_right fun hq => ?_
        rw [togglePixel_pixel, if_neg]
        rintro rfl
        exact hp hq
      rw [head, tail]
      simp only [List.mem_cons, exists_eq_or_imp]
      tauto

/-- The display after a blit of distinct pixels: exactly the listed pixels are flipped (R151). -/
theorem blit_pixel (fb : Framebuffer) (l : List (Fin 32 × Fin 64)) (nodup : l.Nodup) (row : Fin 32) (col : Fin 64) :
    (blit fb l).1[row][col] = if (row, col) ∈ l then !fb[row][col] else fb[row][col] :=
  (foldl_togglePixel l nodup (fb, false)).1 row col

/-- The collision of a blit of distinct pixels: a listed pixel was on (R152). -/
theorem blit_collision (fb : Framebuffer) (l : List (Fin 32 × Fin 64)) (nodup : l.Nodup) :
    (blit fb l).2 = true ↔ ∃ p ∈ l, fb[p.1][p.2] = true :=
  (foldl_togglePixel l nodup (fb, false)).2.trans (by simp)

theorem mem_rowPixels (vx : Byte) (row : Fin 32) (b : Byte) (p : Fin 32 × Fin 64) :
    p ∈ rowPixels vx row b ↔ ∃ c, c < 8 ∧ b.getLsbD (7 - c) = true ∧ p = (row, wrapCol vx c) := by
  simp only [rowPixels, List.mem_map, List.mem_filter, List.mem_range]
  constructor
  · rintro ⟨c, ⟨hc, hb⟩, rfl⟩; exact ⟨c, hc, hb, rfl⟩
  · rintro ⟨c, hc, hb, rfl⟩; exact ⟨c, ⟨hc, hb⟩, rfl⟩

/-- The pixels a sprite sets (R151): those of a set bit `7 - c` of byte `k`, at the wrapped positions. -/
theorem mem_spritePixels (vx vy : Byte) (bs : List Byte) (r : Nat) (p : Fin 32 × Fin 64) :
    p ∈ spritePixels vx vy r bs ↔ ∃ (k : Nat) (h : k < bs.length) (c : Nat), c < 8 ∧ bs[k].getLsbD (7 - c) = true ∧
      p = (wrapRow vy (r + k), wrapCol vx c) := by
  induction bs generalizing r with
  | nil => simp [spritePixels]
  | cons b bs ih =>
    simp only [spritePixels, List.mem_append, mem_rowPixels, ih]
    constructor
    · rintro (⟨c, hc, hb, rfl⟩ | ⟨k, hk, c, hc, hb, rfl⟩)
      · exact ⟨0, by simp, c, hc, by simpa using hb, rfl⟩
      · exact ⟨k + 1, by simpa using hk, c, hc, by simpa using hb, by rw [show r + 1 + k = r + (k + 1) by omega]⟩
    · rintro ⟨k, hk, c, hc, hb, rfl⟩
      cases k with
      | zero => exact Or.inl ⟨c, hc, by simpa using hb, rfl⟩
      | succ k =>
        exact Or.inr ⟨k, by simpa using hk, c, hc, by simpa using hb, by rw [show r + 1 + k = r + (k + 1) by omega]⟩

theorem wrapCol_inj (vx : Byte) {c d : Nat} (hc : c < 8) (hd : d < 8) (h : wrapCol vx c = wrapCol vx d) : c = d := by
  have := congrArg Fin.val h
  simp only [wrapCol, Fin.val_ofNat] at this
  omega

theorem wrapRow_inj (vy : Byte) {r q : Nat} (hr : r < q + 32) (hq : q < r + 32) (h : wrapRow vy r = wrapRow vy q) :
    r = q := by
  have := congrArg Fin.val h
  simp only [wrapRow, Fin.val_ofNat] at this
  omega

/-- Under the wrap policy the positions of one sprite are all distinct (R153). -/
theorem spritePixels_nodup (vx vy : Byte) (bs : List Byte) (r : Nat) (h : bs.length ≤ 32) :
    (spritePixels vx vy r bs).Nodup := by
  induction bs generalizing r with
  | nil => exact List.nodup_nil
  | cons b bs ih =>
    have hl : bs.length + 1 ≤ 32 := by simpa using h
    refine List.nodup_append.2 ⟨?_, ih (r + 1) (by omega), ?_⟩
    · refine List.Nodup.map_on ?_ (List.nodup_range.filter _)
      intro c hc d hd e
      simp only [List.mem_filter, List.mem_range] at hc hd
      exact wrapCol_inj vx hc.1 hd.1 (congrArg Prod.snd e)
    · intro p hp q hq e
      subst e
      obtain ⟨c, -, -, rfl⟩ := (mem_rowPixels _ _ _ _).1 hp
      obtain ⟨k, hk, d, -, -, e⟩ := (mem_spritePixels _ _ _ _ _).1 hq
      have := wrapRow_inj vy (by omega) (by omega) (congrArg Prod.fst e)
      omega

end Sys2Proof.Machine
end

