-- ==== Sys2Proof/Laws/Exec.lean ====
section
/-! SUPPORT. What an instruction can do, said once over all of them: what it may write, how it reports, where `PC`
goes, what becomes of memory. A proof over all instructions cites these and does not unfold the meanings again. -/

namespace Sys2Proof.Machine

/-- A block that is written exists, and only its bytes change (R44). -/
theorem State.writeBlock_cases {s t : State} {a : Nat} {bs : List Byte} (h : s.writeBlock a bs = some t) :
    t = s.setMem (s.mem.writeBytes a bs) ∧ (bs.length = 0 ∨ a + bs.length ≤ 4096) := by
  rw [State.writeBlock] at h
  split at h
  · rename_i hb
    cases h
    exact ⟨rfl, (blockInBounds_iff _ _).1 hb⟩
  · cases h

/-- A block that is read exists, and the bytes are those of memory (R44). -/
theorem State.readBlock_cases {s : State} {a n : Nat} {bs : List Byte} (h : s.readBlock a n = some bs) :
    bs = (List.range n).map (fun k => s.byte (a + k)) ∧ (n = 0 ∨ a + n ≤ 4096) := by
  rw [State.readBlock] at h
  split at h
  · rename_i hb
    cases h
    exact ⟨rfl, (blockInBounds_iff _ _).1 hb⟩
  · cases h

/-- A block that is not written does not exist (R44). -/
theorem State.writeBlock_none {s : State} {bs : List Byte} (h : s.writeBlock (indexBase s) bs = none) :
    ¬ BlockExists s bs.length := by
  have := (State.writeBlock_eq_none _ _ _).1 h
  simp only [BlockExists, indexBase] at *
  omega

/-- A block that is not read does not exist (R44). -/
theorem State.readBlock_none {s : State} {n : Nat} (h : s.readBlock (indexBase s) n = none) : ¬ BlockExists s n := by
  have := (State.readBlock_eq_none _ _ _).1 h
  simp only [BlockExists, indexBase] at *
  omega

/-- The parts of the state that an instruction may write, from its rule. -/
def writes (s : State) : Instr → List Part
  | .cls => [.display, .dirty, .pc]
  | .ret => [.pc, .sp, .outputs]
  | .jp _ => [.pc]
  | .call _ => [.pc, .sp, .slot (s.sp + 1), .outputs]
  | .seImm _ _ => [.pc]
  | .sneImm _ _ => [.pc]
  | .seReg _ _ => [.pc]
  | .ldImm x _ => [.reg x, .pc]
  | .addImm x _ => [.reg x, .pc]
  | .ldReg x _ => [.reg x, .pc]
  | .orReg x _ => [.reg x, .pc]
  | .andReg x _ => [.reg x, .pc]
  | .xorReg x _ => [.reg x, .pc]
  | .addReg x _ => [.reg x, .reg vf, .pc]
  | .sub x _ => [.reg x, .reg vf, .pc]
  | .shr x _ => [.reg x, .reg vf, .pc]
  | .subn x _ => [.reg x, .reg vf, .pc]
  | .shl x _ => [.reg x, .reg vf, .pc]
  | .sneReg _ _ => [.pc]
  | .ldI _ => [.index, .pc]
  | .jpV0 _ => [.pc]
  | .rnd x _ => [.reg x, .pc]
  | .drw _ _ _ => [.display, .dirty, .reg vf, .pc, .outputs]
  | .skp _ => [.pc, .outputs]
  | .sknp _ => [.pc, .outputs]
  | .ldVxDt x => [.reg x, .pc]
  | .ldVxK x => [.reg x, .pc]
  | .ldDtVx _ => [.dt, .pc]
  | .ldStVx _ => [.st, .pc]
  | .addI _ => [.index, .pc]
  | .ldF _ => [.index, .pc]
  | .ldB _ => .pc :: .outputs :: byteParts s.i.toNat 3
  | .storeRegs x => .index :: .pc :: .outputs :: byteParts s.i.toNat (x.toNat + 1)
  | .loadRegs x => .index :: .pc :: .outputs :: regPartsUpTo x

theorem execWriteReg_frame {x : Nibble} {b : Byte} {s t : State} (h : writeReg x b s = .next t) :
    SameBut [.reg x, .pc] s t := by
  simp only [writeReg, done_eq_next] at h
  subst h
  constructor <;> simp +contextual

theorem execWriteRegFlag_frame {x : Nibble} {b f : Byte} {s t : State} (h : writeRegFlag x b f s = .next t) :
    SameBut [.reg x, .reg vf, .pc] s t := by
  simp only [writeRegFlag, done_eq_next] at h
  subst h
  constructor <;> simp +contextual

theorem execSkip_frame {c : Bool} {s t : State} (h : done (s.skipIf c) = .next t) : SameBut [.pc] s t := by
  simp only [done_eq_next] at h
  subst h
  constructor <;> simp

theorem execSkipOnKey_frame {x : Nibble} {b : Bool} {s t : State} (h : skipOnKey x b s = .next t) :
    SameBut [.pc, .outputs] s t := by
  unfold skipOnKey at h
  split at h <;> simp only [raised_eq_next, done_eq_next] at h <;> subst h <;> constructor <;> simp

/-- The frame of every instruction: nothing changes but what its rule names. -/
theorem exec_frame (i : Instr) (s t : State) (h : exec i s = .next t) : SameBut (writes s i) s t := by
  cases i <;> simp only [exec] at h
  case cls => simp only [execCls, done_eq_next] at h; subst h; constructor <;> simp [writes]
  case ret =>
    unfold execRet at h
    split at h <;> simp only [raised_eq_next, done_eq_next] at h <;> subst h <;> constructor <;> simp [writes]
  case jp => simp only [execJp, done_eq_next] at h; subst h; constructor <;> simp [writes]
  case call =>
    unfold execCall at h
    split at h <;> simp only [raised_eq_next, done_eq_next] at h <;> subst h <;> constructor <;>
      simp +contextual [writes]
  case jpV0 => simp only [execJpV0, done_eq_next] at h; subst h; constructor <;> simp [writes]
  case seImm => exact execSkip_frame h
  case sneImm => exact execSkip_frame h
  case seReg => exact execSkip_frame h
  case sneReg => exact execSkip_frame h
  case skp => exact execSkipOnKey_frame h
  case sknp => exact execSkipOnKey_frame h
  case ldImm => exact execWriteReg_frame h
  case addImm => exact execWriteReg_frame h
  case ldReg => exact execWriteReg_frame h
  case orReg => exact execWriteReg_frame h
  case andReg => exact execWriteReg_frame h
  case xorReg => exact execWriteReg_frame h
  case rnd => exact execWriteReg_frame h
  case addReg => exact execWriteRegFlag_frame h
  case sub => exact execWriteRegFlag_frame h
  case shr => exact execWriteRegFlag_frame h
  case subn => exact execWriteRegFlag_frame h
  case shl => exact execWriteRegFlag_frame h
  case ldI => simp only [execLdI, done_eq_next] at h; subst h; constructor <;> simp [writes]
  case addI => simp only [execAddI, done_eq_next] at h; subst h; constructor <;> simp [writes]
  case ldF => simp only [execLdF, done_eq_next] at h; subst h; constructor <;> simp [writes]
  case ldB x =>
    unfold execLdB at h
    split at h <;> simp only [raised_eq_next, done_eq_next] at h <;> subst h
    · constructor <;> simp [writes]
    · rename_i hw
      rw [(State.writeBlock_cases hw).1]
      constructor <;> simp [writes]
      intro a ha
      rw [mem_byteParts] at ha
      exact Memory.read_writeBytes_outside _ _ _ _ (by simp [indexBase]; omega)
  case storeRegs x =>
    unfold execStoreRegs at h
    split at h <;> simp only [raised_eq_next, done_eq_next] at h <;> subst h
    · constructor <;> simp [writes]
    · rename_i hw
      rw [(State.writeBlock_cases hw).1]
      constructor <;> simp [writes]
      intro a ha
      rw [mem_byteParts] at ha
      exact Memory.read_writeBytes_outside _ _ _ _ (by simp [indexBase]; omega)
  case loadRegs x =>
    unfold execLoadRegs at h
    split at h <;> simp only [raised_eq_next, done_eq_next] at h <;> subst h
    · constructor <;> simp [writes]
    · rename_i hr
      obtain ⟨rfl, -⟩ := State.readBlock_cases hr
      constructor <;> simp [writes]
      intro k hk
      rw [mem_regPartsUpTo] at hk
      have : ¬ k.toNat < regCount x := by simp [regCount]; omega
      simp [this]
  case drw =>
    unfold execDrw at h
    split at h <;> simp only [raised_eq_next, done_eq_next] at h <;> subst h <;> constructor <;>
      simp +contextual [writes]
  case ldVxDt => simp only [execLdVxDt, done_eq_next] at h; subst h; constructor <;> simp +contextual [writes]
  case ldVxK =>
    unfold execLdVxK at h
    split at h <;> simp only [done_eq_next] at h <;> subst h <;> constructor <;> simp +contextual [writes]
  case ldDtVx => simp only [execLdDtVx, done_eq_next] at h; subst h; constructor <;> simp [writes]
  case ldStVx => simp only [execLdStVx, done_eq_next] at h; subst h; constructor <;> simp [writes]

theorem execSkipOnKey_reports {x : Nibble} {b : Bool} {s t : State} (h : skipOnKey x b s = .next t) :
    (t = s.raise (.keyIndexRange (s.reg x)) ∧ 15 < (s.reg x).toNat) ∨ t.out = s.out := by
  unfold skipOnKey at h
  split at h <;> simp only [raised_eq_next, done_eq_next] at h <;> subst h
  · rename_i hk
    refine Or.inl ⟨rfl, ?_⟩
    by_contra hc
    simp [keyOperand] at hk
    omega
  · simp

/-- Every way an instruction can report (R176), and that otherwise it touches no output. -/
theorem exec_reports (i : Instr) (s t : State) (h : exec i s = .next t) :
    (t = s.raise .stackOverflow ∧ (∃ nnn, i = .call nnn) ∧ s.sp = 15) ∨
    (t = s.raise .stackUnderflow ∧ i = .ret ∧ s.sp = 0) ∨
    (t = s.raise (.memoryBounds s.i) ∧
      ((∃ x y n, i = .drw x y n ∧ ¬ BlockExists s n.toNat) ∨ (∃ x, i = .ldB x ∧ ¬ BlockExists s 3) ∨
        ∃ x, (i = .storeRegs x ∨ i = .loadRegs x) ∧ ¬ BlockExists s (x.toNat + 1))) ∨
    (∃ x, t = s.raise (.keyIndexRange (s.reg x)) ∧ (i = .skp x ∨ i = .sknp x) ∧ 15 < (s.reg x).toNat) ∨
    t.out = s.out := by
  have frame := exec_frame i s t h
  cases i <;> simp only [exec] at h
  case ret =>
    unfold execRet at h
    split at h <;> simp only [raised_eq_next, done_eq_next] at h <;> subst h <;> simp_all
  case call =>
    unfold execCall at h
    split at h <;> simp only [raised_eq_next, done_eq_next] at h <;> subst h <;> simp_all
  case skp x =>
    rcases execSkipOnKey_reports h with ⟨rfl, hx⟩ | ho
    · exact Or.inr (Or.inr (Or.inr (Or.inl ⟨x, rfl, Or.inl rfl, hx⟩)))
    · simp [ho]
  case sknp x =>
    rcases execSkipOnKey_reports h with ⟨rfl, hx⟩ | ho
    · exact Or.inr (Or.inr (Or.inr (Or.inl ⟨x, rfl, Or.inr rfl, hx⟩)))
    · simp [ho]
  case ldB =>
    unfold execLdB at h
    split at h <;> rename_i hw <;> simp only [raised_eq_next, done_eq_next] at h <;> subst h
    · have hb := State.writeBlock_none hw; simp_all
    · rw [(State.writeBlock_cases hw).1]; simp
  case storeRegs =>
    unfold execStoreRegs at h
    split at h <;> rename_i hw <;> simp only [raised_eq_next, done_eq_next] at h <;> subst h
    · have hb := State.writeBlock_none hw; simp_all
    · rw [(State.writeBlock_cases hw).1]; simp
  case loadRegs =>
    unfold execLoadRegs at h
    split at h <;> rename_i hr <;> simp only [raised_eq_next, done_eq_next] at h <;> subst h
    · have hb := State.readBlock_none hr; simp_all [regCount]
    · simp
  case drw =>
    unfold execDrw at h
    split at h <;> rename_i hr <;> simp only [raised_eq_next, done_eq_next] at h <;> subst h
    · have hb := State.readBlock_none hr; simp_all
    · simp
  all_goals exact Or.inr (Or.inr (Or.inr (Or.inr (frame.outputs (by simp [writes])))))

/-- Memory after an instruction: as before, or one block written that exists. -/
theorem exec_memory (i : Instr) (s t : State) (h : exec i s = .next t) :
    t.mem = s.mem ∨ ∃ a bs, (bs.length = 0 ∨ a + bs.length ≤ 4096) ∧ t.mem = s.mem.writeBytes a bs := by
  cases i <;> simp only [exec] at h
  case ldB =>
    unfold execLdB at h
    split at h <;> simp only [raised_eq_next, done_eq_next] at h <;> subst h
    · simp
    · rename_i hw
      obtain ⟨rfl, hb⟩ := State.writeBlock_cases hw
      exact Or.inr ⟨_, _, hb, by simp⟩
  case storeRegs =>
    unfold execStoreRegs at h
    split at h <;> simp only [raised_eq_next, done_eq_next] at h <;> subst h
    · simp
    · rename_i hw
      obtain ⟨rfl, hb⟩ := State.writeBlock_cases hw
      exact Or.inr ⟨_, _, hb, by simp⟩
  all_goals
    left
    simp only [execCls, execRet, execJp, execCall, execJpV0, execSeImm, execSneImm, execSeReg, execSneReg, execSkp,
      execSknp, skipOnKey, execLdImm, execAddImm, execLdReg, execOrReg, execAndReg, execXorReg, execAddReg, execSub,
      execShr, execSubn, execShl, execRnd, writeReg, writeRegFlag, execLdI, execAddI, execLdF, execLoadRegs, execDrw,
      execLdVxDt, execLdVxK, execLdDtVx, execLdStVx] at h
    first
      | (simp only [done_eq_next] at h; subst h; simp)
      | (split at h <;> simp only [raised_eq_next, done_eq_next] at h <;> subst h <;> simp)

/-- Where `PC` can go (R15): it stays, advances by 2 or 4, or takes one of the four kinds of target. -/
theorem exec_pc (i : Instr) (s t : State) (h : exec i s = .next t) :
    t.pc = s.pc ∨ t.pc = s.pc + 2 ∨ t.pc = s.pc + 4 ∨ (∃ nnn : Addr, t.pc = zext16 nnn) ∨
      (∃ k, t.pc = s.slot k) ∨ ∃ nnn : Addr, t.pc = zext16 nnn + zext16 (s.reg 0) := by
  have skip : ∀ c u, done (s.skipIf c) = .next u → u.pc = s.pc + 2 ∨ u.pc = s.pc + 4 := by
    intro c u hu
    simp only [done_eq_next] at hu
    subst hu
    cases c <;> simp
  have key : ∀ x b u, skipOnKey x b s = .next u → u.pc = s.pc ∨ u.pc = s.pc + 2 ∨ u.pc = s.pc + 4 := by
    intro x b u hu
    unfold skipOnKey at hu
    split at hu
    · simp only [raised_eq_next] at hu; subst hu; simp
    · exact Or.inr (skip _ _ hu)
  cases i <;> simp only [exec] at h
  case seImm => rcases skip _ _ h with e | e <;> simp [e]
  case sneImm => rcases skip _ _ h with e | e <;> simp [e]
  case seReg => rcases skip _ _ h with e | e <;> simp [e]
  case sneReg => rcases skip _ _ h with e | e <;> simp [e]
  case skp => rcases key _ _ _ h with e | e | e <;> simp [e]
  case sknp => rcases key _ _ _ h with e | e | e <;> simp [e]
  case jp nnn =>
    simp only [execJp, done_eq_next] at h
    subst h
    exact Or.inr (Or.inr (Or.inr (Or.inl ⟨nnn, rfl⟩)))
  case jpV0 nnn =>
    simp only [execJpV0, done_eq_next] at h
    subst h
    exact Or.inr (Or.inr (Or.inr (Or.inr (Or.inr ⟨nnn, rfl⟩))))
  case call nnn =>
    unfold execCall at h
    split at h <;> simp only [raised_eq_next, done_eq_next] at h <;> subst h
    · simp
    · exact Or.inr (Or.inr (Or.inr (Or.inl ⟨nnn, rfl⟩)))
  case ret =>
    unfold execRet at h
    split at h <;> simp only [raised_eq_next, done_eq_next] at h <;> subst h
    · simp
    · exact Or.inr (Or.inr (Or.inr (Or.inr (Or.inl ⟨s.sp, rfl⟩))))
  case ldB =>
    unfold execLdB at h
    split at h <;> simp only [raised_eq_next, done_eq_next] at h <;> subst h
    · simp
    · rename_i hw; rw [(State.writeBlock_cases hw).1]; simp
  case storeRegs =>
    unfold execStoreRegs at h
    split at h <;> simp only [raised_eq_next, done_eq_next] at h <;> subst h
    · simp
    · rename_i hw; rw [(State.writeBlock_cases hw).1]; simp
  all_goals
    simp only [execCls, execLdImm, execAddImm, execLdReg, execOrReg, execAndReg, execXorReg, execAddReg, execSub,
      execShr, execSubn, execShl, execRnd, writeReg, writeRegFlag, execLdI, execAddI, execLdF, execLoadRegs, execDrw,
      execLdVxDt, execLdVxK, execLdDtVx, execLdStVx] at h
    first
      | (simp only [done_eq_next] at h; subst h; simp)
      | (split at h <;> simp only [raised_eq_next, done_eq_next] at h <;> subst h <;> simp)

/-- The stack after an instruction: only CALL writes a slot, with `pc + 2`, and never slot 0 (R21, R102). -/
theorem exec_slot (i : Instr) (s t : State) (h : exec i s = .next t) (k : Nibble) :
    t.slot k = s.slot k ∨ (t.slot k = s.pc + 2 ∧ k ≠ 0) := by
  have frame := exec_frame i s t h
  cases i
  case call nnn =>
    simp only [exec, execCall] at h
    split at h <;> simp only [raised_eq_next, done_eq_next] at h <;> subst h
    · simp
    · rename_i hn
      simp only [State.slot_setPc, State.slot_setSlot, State.slot_setSp]
      split
      · rename_i hk
        refine Or.inr ⟨rfl, fun e => hn ?_⟩
        have hs : s.sp + 1 = 0 := hk.symm.trans e
        revert hs
        generalize s.sp = p
        revert p
        decide
      · exact Or.inl rfl
  all_goals exact Or.inl (frame.slots k (by simp [writes, byteParts, regPartsUpTo]))

end Sys2Proof.Machine
end

