-- ==== Sys2Proof/Laws/Cycle.lean ====
section
/-! SUPPORT. The small lemmas of the cycle's operations (40_step_cycle.md) and of the driver's moves: one per field,
and one per accessor. -/

namespace Sys2Proof.Machine

variable (s : State)

@[simp] theorem gatedStep_v : (gatedStep s).v = s.v := rfl
@[simp] theorem gatedStep_i : (gatedStep s).i = s.i := rfl
@[simp] theorem gatedStep_pc : (gatedStep s).pc = s.pc := rfl
@[simp] theorem gatedStep_stack : (gatedStep s).stack = s.stack := rfl
@[simp] theorem gatedStep_sp : (gatedStep s).sp = s.sp := rfl
@[simp] theorem gatedStep_dt : (gatedStep s).dt = s.dt := rfl
@[simp] theorem gatedStep_st : (gatedStep s).st = s.st := rfl
@[simp] theorem gatedStep_keys : (gatedStep s).keys = s.keys := rfl
@[simp] theorem gatedStep_fb : (gatedStep s).fb = s.fb := rfl
@[simp] theorem gatedStep_dirty : (gatedStep s).dirty = s.dirty := rfl
@[simp] theorem gatedStep_gateOpen : (gatedStep s).gateOpen = s.gateOpen := rfl
@[simp] theorem gatedStep_mem : (gatedStep s).mem = s.mem := rfl
@[simp] theorem gatedStep_draws : (gatedStep s).draws = s.draws := rfl
@[simp] theorem gatedStep_schedule : (gatedStep s).schedule = s.schedule := rfl
@[simp] theorem gatedStep_out : (gatedStep s).out = { s.out with result := some .gated } := rfl
@[simp] theorem reg_gatedStep (x : Nibble) : (gatedStep s).reg x = s.reg x := rfl
@[simp] theorem slot_gatedStep (k : Nibble) : (gatedStep s).slot k = s.slot k := rfl
@[simp] theorem key_gatedStep (k : Nibble) : (gatedStep s).key k = s.key k := rfl
@[simp] theorem byte_gatedStep (a : Nat) : (gatedStep s).byte a = s.byte a := rfl
@[simp] theorem pixel_gatedStep (row : Fin 32) (col : Fin 64) : (gatedStep s).pixel row col = s.pixel row col := rfl

@[simp] theorem beginStep_v : (beginStep s).v = s.v := rfl
@[simp] theorem beginStep_i : (beginStep s).i = s.i := rfl
@[simp] theorem beginStep_pc : (beginStep s).pc = s.pc := rfl
@[simp] theorem beginStep_stack : (beginStep s).stack = s.stack := rfl
@[simp] theorem beginStep_sp : (beginStep s).sp = s.sp := rfl
@[simp] theorem beginStep_dt : (beginStep s).dt = s.dt := rfl
@[simp] theorem beginStep_st : (beginStep s).st = s.st := rfl
@[simp] theorem beginStep_keys : (beginStep s).keys = s.keys := rfl
@[simp] theorem beginStep_fb : (beginStep s).fb = s.fb := rfl
@[simp] theorem beginStep_dirty : (beginStep s).dirty = s.dirty := rfl
@[simp] theorem beginStep_gateOpen : (beginStep s).gateOpen = false := rfl
@[simp] theorem beginStep_mem : (beginStep s).mem = s.mem := rfl
@[simp] theorem beginStep_draws : (beginStep s).draws = s.draws := rfl
@[simp] theorem beginStep_schedule : (beginStep s).schedule = s.schedule := rfl
@[simp] theorem beginStep_out : (beginStep s).out = { s.out with report := none } := rfl
@[simp] theorem reg_beginStep (x : Nibble) : (beginStep s).reg x = s.reg x := rfl
@[simp] theorem slot_beginStep (k : Nibble) : (beginStep s).slot k = s.slot k := rfl
@[simp] theorem key_beginStep (k : Nibble) : (beginStep s).key k = s.key k := rfl
@[simp] theorem byte_beginStep (a : Nat) : (beginStep s).byte a = s.byte a := rfl
@[simp] theorem pixel_beginStep (row : Fin 32) (col : Fin 64) : (beginStep s).pixel row col = s.pixel row col := rfl

@[simp] theorem timerPhase_v : (timerPhase s).v = s.v := rfl
@[simp] theorem timerPhase_i : (timerPhase s).i = s.i := rfl
@[simp] theorem timerPhase_pc : (timerPhase s).pc = s.pc := rfl
@[simp] theorem timerPhase_stack : (timerPhase s).stack = s.stack := rfl
@[simp] theorem timerPhase_sp : (timerPhase s).sp = s.sp := rfl
@[simp] theorem timerPhase_dt : (timerPhase s).dt = countDown s.dt := rfl
@[simp] theorem timerPhase_st : (timerPhase s).st = countDown s.st := rfl
@[simp] theorem timerPhase_keys : (timerPhase s).keys = s.keys := rfl
@[simp] theorem timerPhase_fb : (timerPhase s).fb = s.fb := rfl
@[simp] theorem timerPhase_dirty : (timerPhase s).dirty = s.dirty := rfl
@[simp] theorem timerPhase_gateOpen : (timerPhase s).gateOpen = s.gateOpen := rfl
@[simp] theorem timerPhase_mem : (timerPhase s).mem = s.mem := rfl
@[simp] theorem timerPhase_draws : (timerPhase s).draws = s.draws := rfl
@[simp] theorem timerPhase_schedule : (timerPhase s).schedule = s.schedule := rfl
@[simp] theorem timerPhase_out : (timerPhase s).out = s.out := rfl
@[simp] theorem reg_timerPhase (x : Nibble) : (timerPhase s).reg x = s.reg x := rfl
@[simp] theorem slot_timerPhase (k : Nibble) : (timerPhase s).slot k = s.slot k := rfl
@[simp] theorem key_timerPhase (k : Nibble) : (timerPhase s).key k = s.key k := rfl
@[simp] theorem byte_timerPhase (a : Nat) : (timerPhase s).byte a = s.byte a := rfl
@[simp] theorem pixel_timerPhase (row : Fin 32) (col : Fin 64) : (timerPhase s).pixel row col = s.pixel row col := rfl

@[simp] theorem endStep_v (w : Option Word) : (endStep w s).v = s.v := rfl
@[simp] theorem endStep_i (w : Option Word) : (endStep w s).i = s.i := rfl
@[simp] theorem endStep_pc (w : Option Word) : (endStep w s).pc = s.pc := rfl
@[simp] theorem endStep_stack (w : Option Word) : (endStep w s).stack = s.stack := rfl
@[simp] theorem endStep_sp (w : Option Word) : (endStep w s).sp = s.sp := rfl
@[simp] theorem endStep_dt (w : Option Word) : (endStep w s).dt = countDown s.dt := rfl
@[simp] theorem endStep_st (w : Option Word) : (endStep w s).st = countDown s.st := rfl
@[simp] theorem endStep_keys (w : Option Word) : (endStep w s).keys = s.keys := rfl
@[simp] theorem endStep_fb (w : Option Word) : (endStep w s).fb = s.fb := rfl
@[simp] theorem endStep_dirty (w : Option Word) : (endStep w s).dirty = s.dirty := rfl
@[simp] theorem endStep_gateOpen (w : Option Word) : (endStep w s).gateOpen = s.gateOpen := rfl
@[simp] theorem endStep_mem (w : Option Word) : (endStep w s).mem = s.mem := rfl
@[simp] theorem endStep_draws (w : Option Word) : (endStep w s).draws = s.draws + 1 := rfl
@[simp] theorem endStep_schedule (w : Option Word) : (endStep w s).schedule = s.schedule := rfl
@[simp] theorem endStep_out (w : Option Word) : (endStep w s).out = { s.out with result := some (.executed w s.out.report (countDown s.st != 0)) } := rfl
@[simp] theorem reg_endStep (w : Option Word) (x : Nibble) : (endStep w s).reg x = s.reg x := rfl
@[simp] theorem slot_endStep (w : Option Word) (k : Nibble) : (endStep w s).slot k = s.slot k := rfl
@[simp] theorem key_endStep (w : Option Word) (k : Nibble) : (endStep w s).key k = s.key k := rfl
@[simp] theorem byte_endStep (w : Option Word) (a : Nat) : (endStep w s).byte a = s.byte a := rfl
@[simp] theorem pixel_endStep (w : Option Word) (row : Fin 32) (col : Fin 64) : (endStep w s).pixel row col = s.pixel row col := rfl

@[simp] theorem hostTick_v : (hostTick s).v = s.v := rfl
@[simp] theorem hostTick_i : (hostTick s).i = s.i := rfl
@[simp] theorem hostTick_pc : (hostTick s).pc = s.pc := rfl
@[simp] theorem hostTick_stack : (hostTick s).stack = s.stack := rfl
@[simp] theorem hostTick_sp : (hostTick s).sp = s.sp := rfl
@[simp] theorem hostTick_dt : (hostTick s).dt = s.dt := rfl
@[simp] theorem hostTick_st : (hostTick s).st = s.st := rfl
@[simp] theorem hostTick_keys : (hostTick s).keys = s.keys := rfl
@[simp] theorem hostTick_fb : (hostTick s).fb = s.fb := rfl
@[simp] theorem hostTick_dirty : (hostTick s).dirty = s.dirty := rfl
@[simp] theorem hostTick_gateOpen : (hostTick s).gateOpen = true := rfl
@[simp] theorem hostTick_mem : (hostTick s).mem = s.mem := rfl
@[simp] theorem hostTick_draws : (hostTick s).draws = s.draws := rfl
@[simp] theorem hostTick_schedule : (hostTick s).schedule = s.schedule := rfl
@[simp] theorem hostTick_out : (hostTick s).out = s.out := rfl
@[simp] theorem reg_hostTick (x : Nibble) : (hostTick s).reg x = s.reg x := rfl
@[simp] theorem slot_hostTick (k : Nibble) : (hostTick s).slot k = s.slot k := rfl
@[simp] theorem key_hostTick (k : Nibble) : (hostTick s).key k = s.key k := rfl
@[simp] theorem byte_hostTick (a : Nat) : (hostTick s).byte a = s.byte a := rfl
@[simp] theorem pixel_hostTick (row : Fin 32) (col : Fin 64) : (hostTick s).pixel row col = s.pixel row col := rfl

@[simp] theorem hostTakeFramebuffer_v : (hostTakeFramebuffer s).v = s.v := rfl
@[simp] theorem hostTakeFramebuffer_i : (hostTakeFramebuffer s).i = s.i := rfl
@[simp] theorem hostTakeFramebuffer_pc : (hostTakeFramebuffer s).pc = s.pc := rfl
@[simp] theorem hostTakeFramebuffer_stack : (hostTakeFramebuffer s).stack = s.stack := rfl
@[simp] theorem hostTakeFramebuffer_sp : (hostTakeFramebuffer s).sp = s.sp := rfl
@[simp] theorem hostTakeFramebuffer_dt : (hostTakeFramebuffer s).dt = s.dt := rfl
@[simp] theorem hostTakeFramebuffer_st : (hostTakeFramebuffer s).st = s.st := rfl
@[simp] theorem hostTakeFramebuffer_keys : (hostTakeFramebuffer s).keys = s.keys := rfl
@[simp] theorem hostTakeFramebuffer_fb : (hostTakeFramebuffer s).fb = s.fb := rfl
@[simp] theorem hostTakeFramebuffer_dirty : (hostTakeFramebuffer s).dirty = false := rfl
@[simp] theorem hostTakeFramebuffer_gateOpen : (hostTakeFramebuffer s).gateOpen = s.gateOpen := rfl
@[simp] theorem hostTakeFramebuffer_mem : (hostTakeFramebuffer s).mem = s.mem := rfl
@[simp] theorem hostTakeFramebuffer_draws : (hostTakeFramebuffer s).draws = s.draws := rfl
@[simp] theorem hostTakeFramebuffer_schedule : (hostTakeFramebuffer s).schedule = s.schedule := rfl
@[simp] theorem hostTakeFramebuffer_out : (hostTakeFramebuffer s).out = { s.out with frame := some (s.fb, s.dirty) } := rfl
@[simp] theorem reg_hostTakeFramebuffer (x : Nibble) : (hostTakeFramebuffer s).reg x = s.reg x := rfl
@[simp] theorem slot_hostTakeFramebuffer (k : Nibble) : (hostTakeFramebuffer s).slot k = s.slot k := rfl
@[simp] theorem key_hostTakeFramebuffer (k : Nibble) : (hostTakeFramebuffer s).key k = s.key k := rfl
@[simp] theorem byte_hostTakeFramebuffer (a : Nat) : (hostTakeFramebuffer s).byte a = s.byte a := rfl
@[simp] theorem pixel_hostTakeFramebuffer (row : Fin 32) (col : Fin 64) : (hostTakeFramebuffer s).pixel row col = s.pixel row col := rfl

/-! `reset()` (R211): constants in every field but memory and the model's own. -/

@[simp] theorem reg_hostReset (x : Nibble) : (hostReset s).reg x = 0 := by simp [hostReset, State.reg]
@[simp] theorem slot_hostReset (k : Nibble) : (hostReset s).slot k = 0 := by simp [hostReset, State.slot]
@[simp] theorem key_hostReset (k : Nibble) : (hostReset s).key k = false := by simp [hostReset, State.key]
@[simp] theorem pixel_hostReset (row : Fin 32) (col : Fin 64) : (hostReset s).pixel row col = false := by
  simp [hostReset, State.pixel, Framebuffer.blank]
@[simp] theorem byte_hostReset (a : Nat) : (hostReset s).byte a = s.byte a := rfl
@[simp] theorem hostReset_pc : (hostReset s).pc = 0x200 := rfl
@[simp] theorem hostReset_mem : (hostReset s).mem = s.mem := rfl
@[simp] theorem hostReset_out : (hostReset s).out = s.out := rfl

/-! `loadProgram` (R196): only memory and its answer. -/

theorem hostLoadProgram_frame (bytes : List Byte) :
    SameBut (.outputs :: byteParts 0x200 bytes.length) s (hostLoadProgram bytes s) := by
  unfold hostLoadProgram
  split
  · constructor <;> simp
  · constructor <;> simp
    intro a ha
    rw [mem_byteParts] at ha
    exact Memory.read_writeBytes_outside _ _ _ _ (by simp [Config.progBase]; omega)

/-- What every move of the driver keeps, said once: a property of registers `PC`, stack and memory that `reset()`
establishes and `loadProgram` keeps holds after the driver's turn. -/
theorem driverTurn_keeps {P : Word → (Nibble → Word) → Memory → Prop}
    (load : ∀ pc slot m bytes, bytes.length ≤ 3584 → P pc slot m → P pc slot (m.writeBytes 0x200 bytes))
    (reset : ∀ pc slot m, P pc slot m → P 0x200 (fun _ => 0) m) (s t : State) (hs : P s.pc s.slot s.mem)
    (h : driverTurn s = .next t) : P t.pc t.slot t.mem := by
  refine driverTurn_induct (P := fun s => P s.pc s.slot s.mem) ?_ (fun _ _ h => h) s t hs h
  intro op a b ha h
  cases op <;> simp only [hostOp] at h
  case setKey => split at h <;> cases h; exact ha
  case loadProgram bytes =>
    cases h
    unfold hostLoadProgram
    split
    · exact ha
    · rename_i hl
      exact load _ _ _ _ (by simpa [Config.progCap] using hl) ha
  case reset =>
    cases h
    have := reset _ _ _ ha
    rwa [show (hostReset a).slot = fun _ => 0 from funext (slot_hostReset a)]
  all_goals cases h; exact ha

/-- The three kinds of result of the step, in one place: the parts that only an instruction changes (R82). -/
theorem step_rest {P : State → Prop} {s t : State} (h : step s = .next t)
    (turn : ∀ u, driverTurn s = .next u → P u)
    (gated : ∀ u, P u → P (gatedStep u))
    (idle : ∀ u w r, P u → P (endStep w ((beginStep u).raise r)))
    (run : ∀ u w i z, P u → fetch u = some w → decode w = .instr i → exec i (beginStep u) = .next z →
      P (endStep (some w) z)) : P t := by
  obtain ⟨u, hu, hc⟩ := step_cases h
  rcases hc with ⟨-, rfl⟩ | ⟨-, ⟨-, rfl⟩ | ⟨w, hf, ⟨w', -, rfl⟩ | ⟨i, z, hd, hx, rfl⟩⟩⟩
  · exact gated u (turn u hu)
  · exact idle u _ _ (turn u hu)
  · exact idle u _ _ (turn u hu)
  · exact run u w i z (turn u hu) hf hd hx

end Sys2Proof.Machine
end

