-- ==== Sys2Proof/Laws/Decode.lean ====
section
/-! SUPPORT. The opcode map (30_encoding.md R64): its rows are disjoint, so a word that hits a row decodes by it;
what hitting a row says of the word as a number; and the word of an instruction as a number. -/

namespace Sys2Proof

/-- Two rows that no word hits both (R64). -/
def Row.disjoint (r q : Row) : Bool := (r.pattern &&& q.mask) != (q.pattern &&& r.mask)

theorem rows_disjoint : rows.Pairwise (fun r q => r.disjoint q = true) := by decide

theorem Row.not_hits_both (r q : Row) (w : Word) (d : r.disjoint q = true) (hr : r.hits w = true) :
    q.hits w = false := by
  rw [Bool.eq_false_iff]
  intro hq
  simp only [Row.hits, beq_iff_eq] at hr hq
  simp only [Row.disjoint, bne_iff_ne, ne_eq] at d
  apply d
  rw [← hr, ← hq, BitVec.and_assoc, BitVec.and_assoc, BitVec.and_comm r.mask]

theorem find_of_disjoint (l : List Row) (w : Word) (d : l.Pairwise (fun r q => r.disjoint q = true)) (r : Row)
    (hr : r ∈ l) (hit : r.hits w = true) : l.find? (fun q => q.hits w) = some r := by
  induction l with
  | nil => cases hr
  | cons q l ih =>
    have hd := List.pairwise_cons.1 d
    rcases List.mem_cons.1 hr with rfl | hr
    · exact List.find?_cons_of_pos hit
    · have hq : q.hits w = false := by
        rw [Bool.eq_false_iff]
        intro hq
        have := Row.not_hits_both q r w (hd.1 r hr) hq
        rw [hit] at this
        cases this
      rw [List.find?_cons_of_neg (by simp [hq])]
      exact ih hd.2 hr

/-- A word that hits a row of the map is that row's instruction (R64: "the first (and only) row"). -/
theorem decode_of_hits (w : Word) (r : Row) (hr : r ∈ rows) (hit : r.hits w = true) : decode w = .instr (r.make w) := by
  rw [decode, find_of_disjoint rows w rows_disjoint r hr hit]

/-- A word that decodes to an instruction hits a row that makes it. -/
theorem hits_of_decode (w : Word) (i : Instr) (h : decode w = .instr i) : ∃ r ∈ rows, r.hits w = true ∧ r.make w = i := by
  rw [decode] at h
  split at h
  · rename_i r hr
    cases h
    exact ⟨r, List.mem_of_find?_eq_some hr, List.find?_some (p := fun r : Row => r.hits w) hr, rfl⟩
  · cases h

/-- A word that hits no row is answered as invalid, with itself. -/
theorem decode_of_no_hit (w : Word) (h : ∀ r ∈ rows, r.hits w = false) : decode w = .invalidOpcode w := by
  rw [decode, List.find?_eq_none.2 (fun r hr => by simp [h r hr])]

/-! The four masks, as arithmetic. -/

theorem toNat_and_F000 (w : Word) : (w &&& 0xF000#16).toNat = w.toNat / 4096 * 4096 := by
  have : w &&& 0xF000#16 = (w >>> 12) <<< 12 := by
    ext i hi
    interval_cases i <;> simp
  have lt := w.isLt
  rw [this]
  simp only [BitVec.toNat_shiftLeft, BitVec.toNat_ushiftRight, Nat.shiftRight_eq_div_pow, Nat.shiftLeft_eq]
  omega

theorem toNat_and_F00F (w : Word) : (w &&& 0xF00F#16).toNat = w.toNat / 4096 * 4096 + w.toNat % 16 := by
  have : w &&& 0xF00F#16 = ((w >>> 12) <<< 12) ||| ((w <<< 12) >>> 12) := by
    ext i hi
    interval_cases i <;> simp
  have lt := w.isLt
  rw [this]
  simp only [BitVec.toNat_or, BitVec.toNat_shiftLeft, BitVec.toNat_ushiftRight, Nat.shiftRight_eq_div_pow,
    Nat.shiftLeft_eq]
  have h : w.toNat / 2 ^ 12 * 2 ^ 12 % 2 ^ 16 = (w.toNat / 2 ^ 12) <<< 12 := by rw [Nat.shiftLeft_eq]; omega
  rw [h, ← Nat.shiftLeft_add_eq_or_of_lt (by omega), Nat.shiftLeft_eq]
  omega

theorem toNat_and_F0FF (w : Word) : (w &&& 0xF0FF#16).toNat = w.toNat / 4096 * 4096 + w.toNat % 256 := by
  have : w &&& 0xF0FF#16 = ((w >>> 12) <<< 12) ||| ((w <<< 8) >>> 8) := by
    ext i hi
    interval_cases i <;> simp
  have lt := w.isLt
  rw [this]
  simp only [BitVec.toNat_or, BitVec.toNat_shiftLeft, BitVec.toNat_ushiftRight, Nat.shiftRight_eq_div_pow,
    Nat.shiftLeft_eq]
  have h : w.toNat / 2 ^ 12 * 2 ^ 12 % 2 ^ 16 = (w.toNat / 2 ^ 12) <<< 12 := by rw [Nat.shiftLeft_eq]; omega
  rw [h, ← Nat.shiftLeft_add_eq_or_of_lt (by omega), Nat.shiftLeft_eq]
  omega

theorem toNat_and_FFFF (w : Word) : (w &&& 0xFFFF#16).toNat = w.toNat := by
  have : w &&& 0xFFFF#16 = w := by
    ext i hi
    interval_cases i <;> simp
  rw [this]

/-- Concatenation as arithmetic: the high part counts in units of the low part's range. -/
theorem toNat_concat {a b : Nat} (x : BitVec a) (y : BitVec b) : (x ++ y).toNat = x.toNat * 2 ^ b + y.toNat := by
  rw [BitVec.toNat_append, ← Nat.shiftLeft_add_eq_or_of_lt y.isLt, Nat.shiftLeft_eq]

/-! The fields as arithmetic (R61). -/

theorem fieldX_toNat (w : Word) : (fieldX w).toNat = w.toNat / 256 % 16 := by
  simp [fieldX, Nat.shiftRight_eq_div_pow]

theorem fieldY_toNat (w : Word) : (fieldY w).toNat = w.toNat / 16 % 16 := by
  simp [fieldY, Nat.shiftRight_eq_div_pow]

theorem fieldN_toNat (w : Word) : (fieldN w).toNat = w.toNat % 16 := by simp [fieldN]

theorem fieldKk_toNat (w : Word) : (fieldKk w).toNat = w.toNat % 256 := by simp [fieldKk]

theorem fieldNnn_toNat (w : Word) : (fieldNnn w).toNat = w.toNat % 4096 := by simp [fieldNnn]

end Sys2Proof
end

