-- ==== Sys2Proof/Laws/PerInstr.lean ====
section
/-! SUPPORT. One lemma per constructor: the word of every instruction, whatever its operands, is none of the invalid
words that R66 (30_encoding.md) lists. -/

namespace Sys2Proof.Laws.ValidWord

/-- The word of the instruction is well formed. -/
def Statement (i : Instr) : Prop := validWord (encode i) = true

theorem cls : Statement .cls := by
  rw [Statement]
  decide

theorem ret : Statement .ret := by
  rw [Statement]
  decide

theorem jp (nnn : Addr) : Statement (.jp nnn) := by
  have g : wordGroup (encode (.jp nnn)) = 1 := by
    simp only [wordGroup, encode, toNat_concat, BitVec.toNat_ofNat]
    omega
  simp [Statement, validWord, g]

theorem call (nnn : Addr) : Statement (.call nnn) := by
  have g : wordGroup (encode (.call nnn)) = 2 := by
    simp only [wordGroup, encode, toNat_concat, BitVec.toNat_ofNat]
    omega
  simp [Statement, validWord, g]

theorem seImm (x : Nibble) (kk : Byte) : Statement (.seImm x kk) := by
  have g : wordGroup (encode (.seImm x kk)) = 3 := by
    simp only [wordGroup, encode, toNat_concat, BitVec.toNat_ofNat]
    omega
  simp [Statement, validWord, g]

theorem sneImm (x : Nibble) (kk : Byte) : Statement (.sneImm x kk) := by
  have g : wordGroup (encode (.sneImm x kk)) = 4 := by
    simp only [wordGroup, encode, toNat_concat, BitVec.toNat_ofNat]
    omega
  simp [Statement, validWord, g]

theorem seReg (x y : Nibble) : Statement (.seReg x y) := by
  have g : wordGroup (encode (.seReg x y)) = 5 := by
    simp only [wordGroup, encode, toNat_concat, BitVec.toNat_ofNat]
    omega
  have b : wordLow (encode (.seReg x y)) = 0 := by
    simp only [wordLow, encode, toNat_concat, BitVec.toNat_ofNat]
    omega
  simp [Statement, validWord, g, validGroup59, b]

theorem ldImm (x : Nibble) (kk : Byte) : Statement (.ldImm x kk) := by
  have g : wordGroup (encode (.ldImm x kk)) = 6 := by
    simp only [wordGroup, encode, toNat_concat, BitVec.toNat_ofNat]
    omega
  simp [Statement, validWord, g]

theorem addImm (x : Nibble) (kk : Byte) : Statement (.addImm x kk) := by
  have g : wordGroup (encode (.addImm x kk)) = 7 := by
    simp only [wordGroup, encode, toNat_concat, BitVec.toNat_ofNat]
    omega
  simp [Statement, validWord, g]

theorem ldReg (x y : Nibble) : Statement (.ldReg x y) := by
  have g : wordGroup (encode (.ldReg x y)) = 8 := by
    simp only [wordGroup, encode, toNat_concat, BitVec.toNat_ofNat]
    omega
  have b : wordLow (encode (.ldReg x y)) = 0 := by
    simp only [wordLow, encode, toNat_concat, BitVec.toNat_ofNat]
    omega
  simp [Statement, validWord, g, validGroup8, b]

theorem orReg (x y : Nibble) : Statement (.orReg x y) := by
  have g : wordGroup (encode (.orReg x y)) = 8 := by
    simp only [wordGroup, encode, toNat_concat, BitVec.toNat_ofNat]
    omega
  have b : wordLow (encode (.orReg x y)) = 1 := by
    simp only [wordLow, encode, toNat_concat, BitVec.toNat_ofNat]
    omega
  simp [Statement, validWord, g, validGroup8, b]

theorem andReg (x y : Nibble) : Statement (.andReg x y) := by
  have g : wordGroup (encode (.andReg x y)) = 8 := by
    simp only [wordGroup, encode, toNat_concat, BitVec.toNat_ofNat]
    omega
  have b : wordLow (encode (.andReg x y)) = 2 := by
    simp only [wordLow, encode, toNat_concat, BitVec.toNat_ofNat]
    omega
  simp [Statement, validWord, g, validGroup8, b]

theorem xorReg (x y : Nibble) : Statement (.xorReg x y) := by
  have g : wordGroup (encode (.xorReg x y)) = 8 := by
    simp only [wordGroup, encode, toNat_concat, BitVec.toNat_ofNat]
    omega
  have b : wordLow (encode (.xorReg x y)) = 3 := by
    simp only [wordLow, encode, toNat_concat, BitVec.toNat_ofNat]
    omega
  simp [Statement, validWord, g, validGroup8, b]

theorem addReg (x y : Nibble) : Statement (.addReg x y) := by
  have g : wordGroup (encode (.addReg x y)) = 8 := by
    simp only [wordGroup, encode, toNat_concat, BitVec.toNat_ofNat]
    omega
  have b : wordLow (encode (.addReg x y)) = 4 := by
    simp only [wordLow, encode, toNat_concat, BitVec.toNat_ofNat]
    omega
  simp [Statement, validWord, g, validGroup8, b]

theorem sub (x y : Nibble) : Statement (.sub x y) := by
  have g : wordGroup (encode (.sub x y)) = 8 := by
    simp only [wordGroup, encode, toNat_concat, BitVec.toNat_ofNat]
    omega
  have b : wordLow (encode (.sub x y)) = 5 := by
    simp only [wordLow, encode, toNat_concat, BitVec.toNat_ofNat]
    omega
  simp [Statement, validWord, g, validGroup8, b]

theorem shr (x y : Nibble) : Statement (.shr x y) := by
  have g : wordGroup (encode (.shr x y)) = 8 := by
    simp only [wordGroup, encode, toNat_concat, BitVec.toNat_ofNat]
    omega
  have b : wordLow (encode (.shr x y)) = 6 := by
    simp only [wordLow, encode, toNat_concat, BitVec.toNat_ofNat]
    omega
  simp [Statement, validWord, g, validGroup8, b]

theorem subn (x y : Nibble) : Statement (.subn x y) := by
  have g : wordGroup (encode (.subn x y)) = 8 := by
    simp only [wordGroup, encode, toNat_concat, BitVec.toNat_ofNat]
    omega
  have b : wordLow (encode (.subn x y)) = 7 := by
    simp only [wordLow, encode, toNat_concat, BitVec.toNat_ofNat]
    omega
  simp [Statement, validWord, g, validGroup8, b]

theorem shl (x y : Nibble) : Statement (.shl x y) := by
  have g : wordGroup (encode (.shl x y)) = 8 := by
    simp only [wordGroup, encode, toNat_concat, BitVec.toNat_ofNat]
    omega
  have b : wordLow (encode (.shl x y)) = 14 := by
    simp only [wordLow, encode, toNat_concat, BitVec.toNat_ofNat]
    omega
  simp [Statement, validWord, g, validGroup8, b]

theorem sneReg (x y : Nibble) : Statement (.sneReg x y) := by
  have g : wordGroup (encode (.sneReg x y)) = 9 := by
    simp only [wordGroup, encode, toNat_concat, BitVec.toNat_ofNat]
    omega
  have b : wordLow (encode (.sneReg x y)) = 0 := by
    simp only [wordLow, encode, toNat_concat, BitVec.toNat_ofNat]
    omega
  simp [Statement, validWord, g, validGroup59, b]

theorem ldI (nnn : Addr) : Statement (.ldI nnn) := by
  have g : wordGroup (encode (.ldI nnn)) = 10 := by
    simp only [wordGroup, encode, toNat_concat, BitVec.toNat_ofNat]
    omega
  simp [Statement, validWord, g]

theorem jpV0 (nnn : Addr) : Statement (.jpV0 nnn) := by
  have g : wordGroup (encode (.jpV0 nnn)) = 11 := by
    simp only [wordGroup, encode, toNat_concat, BitVec.toNat_ofNat]
    omega
  simp [Statement, validWord, g]

theorem rnd (x : Nibble) (kk : Byte) : Statement (.rnd x kk) := by
  have g : wordGroup (encode (.rnd x kk)) = 12 := by
    simp only [wordGroup, encode, toNat_concat, BitVec.toNat_ofNat]
    omega
  simp [Statement, validWord, g]

theorem drw (x y n : Nibble) : Statement (.drw x y n) := by
  have g : wordGroup (encode (.drw x y n)) = 13 := by
    simp only [wordGroup, encode, toNat_concat, BitVec.toNat_ofNat]
    omega
  simp [Statement, validWord, g]

theorem skp (x : Nibble) : Statement (.skp x) := by
  have g : wordGroup (encode (.skp x)) = 14 := by
    simp only [wordGroup, encode, toNat_concat, BitVec.toNat_ofNat]
    omega
  have b : wordByte (encode (.skp x)) = 0x9E := by
    simp only [wordByte, encode, toNat_concat, BitVec.toNat_ofNat]
    omega
  simp [Statement, validWord, g, validGroupE, b]

theorem sknp (x : Nibble) : Statement (.sknp x) := by
  have g : wordGroup (encode (.sknp x)) = 14 := by
    simp only [wordGroup, encode, toNat_concat, BitVec.toNat_ofNat]
    omega
  have b : wordByte (encode (.sknp x)) = 0xA1 := by
    simp only [wordByte, encode, toNat_concat, BitVec.toNat_ofNat]
    omega
  simp [Statement, validWord, g, validGroupE, b]

theorem ldVxDt (x : Nibble) : Statement (.ldVxDt x) := by
  have g : wordGroup (encode (.ldVxDt x)) = 15 := by
    simp only [wordGroup, encode, toNat_concat, BitVec.toNat_ofNat]
    omega
  have b : wordByte (encode (.ldVxDt x)) = 0x07 := by
    simp only [wordByte, encode, toNat_concat, BitVec.toNat_ofNat]
    omega
  simp [Statement, validWord, g, validGroupF, b]

theorem ldVxK (x : Nibble) : Statement (.ldVxK x) := by
  have g : wordGroup (encode (.ldVxK x)) = 15 := by
    simp only [wordGroup, encode, toNat_concat, BitVec.toNat_ofNat]
    omega
  have b : wordByte (encode (.ldVxK x)) = 0x0A := by
    simp only [wordByte, encode, toNat_concat, BitVec.toNat_ofNat]
    omega
  simp [Statement, validWord, g, validGroupF, b]

theorem ldDtVx (x : Nibble) : Statement (.ldDtVx x) := by
  have g : wordGroup (encode (.ldDtVx x)) = 15 := by
    simp only [wordGroup, encode, toNat_concat, BitVec.toNat_ofNat]
    omega
  have b : wordByte (encode (.ldDtVx x)) = 0x15 := by
    simp only [wordByte, encode, toNat_concat, BitVec.toNat_ofNat]
    omega
  simp [Statement, validWord, g, validGroupF, b]

theorem ldStVx (x : Nibble) : Statement (.ldStVx x) := by
  have g : wordGroup (encode (.ldStVx x)) = 15 := by
    simp only [wordGroup, encode, toNat_concat, BitVec.toNat_ofNat]
    omega
  have b : wordByte (encode (.ldStVx x)) = 0x18 := by
    simp only [wordByte, encode, toNat_concat, BitVec.toNat_ofNat]
    omega
  simp [Statement, validWord, g, validGroupF, b]

theorem addI (x : Nibble) : Statement (.addI x) := by
  have g : wordGroup (encode (.addI x)) = 15 := by
    simp only [wordGroup, encode, toNat_concat, BitVec.toNat_ofNat]
    omega
  have b : wordByte (encode (.addI x)) = 0x1E := by
    simp only [wordByte, encode, toNat_concat, BitVec.toNat_ofNat]
    omega
  simp [Statement, validWord, g, validGroupF, b]

theorem ldF (x : Nibble) : Statement (.ldF x) := by
  have g : wordGroup (encode (.ldF x)) = 15 := by
    simp only [wordGroup, encode, toNat_concat, BitVec.toNat_ofNat]
    omega
  have b : wordByte (encode (.ldF x)) = 0x29 := by
    simp only [wordByte, encode, toNat_concat, BitVec.toNat_ofNat]
    omega
  simp [Statement, validWord, g, validGroupF, b]

theorem ldB (x : Nibble) : Statement (.ldB x) := by
  have g : wordGroup (encode (.ldB x)) = 15 := by
    simp only [wordGroup, encode, toNat_concat, BitVec.toNat_ofNat]
    omega
  have b : wordByte (encode (.ldB x)) = 0x33 := by
    simp only [wordByte, encode, toNat_concat, BitVec.toNat_ofNat]
    omega
  simp [Statement, validWord, g, validGroupF, b]

theorem storeRegs (x : Nibble) : Statement (.storeRegs x) := by
  have g : wordGroup (encode (.storeRegs x)) = 15 := by
    simp only [wordGroup, encode, toNat_concat, BitVec.toNat_ofNat]
    omega
  have b : wordByte (encode (.storeRegs x)) = 0x55 := by
    simp only [wordByte, encode, toNat_concat, BitVec.toNat_ofNat]
    omega
  simp [Statement, validWord, g, validGroupF, b]

theorem loadRegs (x : Nibble) : Statement (.loadRegs x) := by
  have g : wordGroup (encode (.loadRegs x)) = 15 := by
    simp only [wordGroup, encode, toNat_concat, BitVec.toNat_ofNat]
    omega
  have b : wordByte (encode (.loadRegs x)) = 0x65 := by
    simp only [wordByte, encode, toNat_concat, BitVec.toNat_ofNat]
    omega
  simp [Statement, validWord, g, validGroupF, b]

end Sys2Proof.Laws.ValidWord
end

