-- ==== Sys2Proof/Tests/Slice0.lean ====
section
/-! SUPPORT. The model's own tests. Expected values come from spec/: the words from the "encoding" column of
opcode_table.json, the effects from the vectors of 95_test_vectors.md (named in each comment). -/

namespace Sys2Proof.Tests

open Sys2Proof.Machine

/-! Well-formed words: one ill-formed word for each check of `validWord` (R66; vectors EN1 to EN10). -/

theorem test_group0_refuses_zero : validWord 0x0000 = false := by decide
theorem test_group0_refuses_0nnn : validWord 0x0123 = false := by decide
theorem test_group5_refuses_low_nibble : validWord 0x5121 = false := by decide
theorem test_group8_refuses_8 : validWord 0x8AB8 = false := by decide
theorem test_group9_refuses_low_nibble : validWord 0x912F = false := by decide
theorem test_groupE_refuses_9F : validWord 0xE19F = false := by decide
theorem test_groupF_refuses_75 : validWord 0xF175 = false := by decide
theorem test_decoder_refuses_by_name : decode 0x8AB8 = .invalidOpcode 0x8AB8 := by decide
theorem test_decoder_refuses_one_byte : decodeBytes [0x12] = .truncated := by decide
theorem test_decoder_big_endian : decodeBytes [0x12, 0x34, 0x56] = .word (.instr (.jp 0x234)) [0x56] := by decide

/-! One word per constructor, written out from its encoding. -/

theorem test_decode_cls : decode 0b0000000011100000 = .instr .cls := by decide
theorem test_decode_ret : decode 0b0000000011101110 = .instr .ret := by decide
theorem test_decode_jp : decode 0b0001101010111100 = .instr (.jp 0xABC) := by decide
theorem test_decode_call : decode 0b0010101010111100 = .instr (.call 0xABC) := by decide
theorem test_decode_seImm : decode 0b0011101001000010 = .instr (.seImm 0xA 0x42) := by decide
theorem test_decode_sneImm : decode 0b0100101001000010 = .instr (.sneImm 0xA 0x42) := by decide
theorem test_decode_seReg : decode 0b0101101010110000 = .instr (.seReg 0xA 0xB) := by decide
theorem test_decode_ldImm : decode 0b0110101001111111 = .instr (.ldImm 0xA 0x7F) := by decide
theorem test_decode_addImm : decode 0b0111101000000010 = .instr (.addImm 0xA 0x02) := by decide
theorem test_decode_ldReg : decode 0b1000101010110000 = .instr (.ldReg 0xA 0xB) := by decide
theorem test_decode_orReg : decode 0b1000101010110001 = .instr (.orReg 0xA 0xB) := by decide
theorem test_decode_andReg : decode 0b1000101010110010 = .instr (.andReg 0xA 0xB) := by decide
theorem test_decode_xorReg : decode 0b1000101010110011 = .instr (.xorReg 0xA 0xB) := by decide
theorem test_decode_addReg : decode 0b1000101010110100 = .instr (.addReg 0xA 0xB) := by decide
theorem test_decode_sub : decode 0b1000101010110101 = .instr (.sub 0xA 0xB) := by decide
theorem test_decode_shr : decode 0b1000101010110110 = .instr (.shr 0xA 0xB) := by decide
theorem test_decode_subn : decode 0b1000101010110111 = .instr (.subn 0xA 0xB) := by decide
theorem test_decode_shl : decode 0b1000101010111110 = .instr (.shl 0xA 0xB) := by decide
theorem test_decode_sneReg : decode 0b1001101010110000 = .instr (.sneReg 0xA 0xB) := by decide
theorem test_decode_ldI : decode 0b1010101010111100 = .instr (.ldI 0xABC) := by decide
theorem test_decode_jpV0 : decode 0b1011101010111100 = .instr (.jpV0 0xABC) := by decide
theorem test_decode_rnd : decode 0b1100001100001111 = .instr (.rnd 0x3 0x0F) := by decide
theorem test_decode_drw : decode 0b1101101010110101 = .instr (.drw 0xA 0xB 0x5) := by decide
theorem test_decode_skp : decode 0b1110000110011110 = .instr (.skp 0x1) := by decide
theorem test_decode_sknp : decode 0b1110000110100001 = .instr (.sknp 0x1) := by decide
theorem test_decode_ldVxDt : decode 0b1111000100000111 = .instr (.ldVxDt 0x1) := by decide
theorem test_decode_ldVxK : decode 0b1111001000001010 = .instr (.ldVxK 0x2) := by decide
theorem test_decode_ldDtVx : decode 0b1111000100010101 = .instr (.ldDtVx 0x1) := by decide
theorem test_decode_ldStVx : decode 0b1111000100011000 = .instr (.ldStVx 0x1) := by decide
theorem test_decode_addI : decode 0b1111001000011110 = .instr (.addI 0x2) := by decide
theorem test_decode_ldF : decode 0b1111001100101001 = .instr (.ldF 0x3) := by decide
theorem test_decode_ldB : decode 0b1111010000110011 = .instr (.ldB 0x4) := by decide
theorem test_decode_storeRegs : decode 0b1111001001010101 = .instr (.storeRegs 0x2) := by decide
theorem test_decode_loadRegs : decode 0b1111001001100101 = .instr (.loadRegs 0x2) := by decide

/-! Single steps. The start state is power-on with what the vector names; `after s w f` runs the word `w` at `PC`,
after a tick, and reads the result with `f`. -/

/-- One step of the word `w` from `s`, looked at through `f`. -/
def after {α : Type} (s : State) (w : Nat) (f : State → α) : Option α :=
  match step (s.withFetchWord 16 w) with
  | .next t => some (f t)
  | .fault _ => none
  | .refused _ => none

/-- Power-on with `VA` and `VB` set. -/
def withAB (a b : Byte) : State := (State.reset.setReg 0xA a).setReg 0xB b

/-- Power-on with `I` and bytes at 0x300. -/
def withI (i : Word) (bytes : List Byte) : State := (State.reset.setI i).setMem (Memory.writeBytes [] 0x300 bytes)

/-- The report of the last step. -/
def rep (s : State) : Option Report := s.out.report

-- FL1, FL3
theorem test_jp : after State.reset 0x1234 (·.pc) = some 0x234 := by decide
theorem test_jp_top : after State.reset 0x1FFF (fun t => (t.pc, rep t)) = some (0xFFF, none) := by decide
-- FL5, FL7
theorem test_call_top : after (State.reset.setPc 0xFFE) 0x2ABC (fun t => (t.pc, t.sp, t.slot 1)) =
    some (0xABC, 1, 0x1000) := by decide
theorem test_call_overflow : after (State.reset.setSp 15) 0x2300 (fun t => (t.pc, t.sp, rep t)) =
    some (0x200, 15, some .stackOverflow) := by decide
-- FL8, FL9
theorem test_ret_underflow : after State.reset 0x00EE (fun t => (t.pc, t.sp, rep t)) =
    some (0x200, 0, some .stackUnderflow) := by decide
theorem test_ret : after ((State.reset.setSp 3).setSlot 3 0x456) 0x00EE (fun t => (t.pc, t.sp, t.slot 3)) =
    some (0x456, 2, 0x456) := by decide
-- FL12, FL13
theorem test_jpV0_unmasked : after (State.reset.setReg 0 0xFF) 0xBFFF (·.pc) = some 0x10FE := by decide
theorem test_jpV0_not_vx : after (State.reset.setReg 3 0x10) 0xB300 (·.pc) = some 0x300 := by decide
-- SK1 to SK8, SK12
theorem test_seImm_taken : after (withAB 0x42 0) 0x3A42 (·.pc) = some 0x204 := by decide
theorem test_seImm_top : after (State.reset.setPc 0xFFE) 0x3000 (·.pc) = some 0x1002 := by decide
theorem test_sneImm_not_taken : after (withAB 0x42 0) 0x4A42 (·.pc) = some 0x202 := by decide
theorem test_sneImm_taken : after (withAB 0x43 0) 0x4A42 (·.pc) = some 0x204 := by decide
theorem test_seReg_taken : after (withAB 7 7) 0x5AB0 (·.pc) = some 0x204 := by decide
theorem test_seReg_not_taken : after (withAB 7 8) 0x5AB0 (·.pc) = some 0x202 := by decide
theorem test_sneReg_not_taken : after (withAB 7 7) 0x9AB0 (·.pc) = some 0x202 := by decide
theorem test_sneReg_taken : after (withAB 7 8) 0x9AB0 (·.pc) = some 0x204 := by decide
-- SK15, SK19, SK17, SK20
theorem test_skp_taken : after ((State.reset.setReg 1 15).setKey 15 true) 0xE19E (·.pc) = some 0x204 := by decide
theorem test_skp_range : after (State.reset.setReg 1 0x10) 0xE19E (fun t => (t.pc, rep t)) =
    some (0x200, some (.keyIndexRange 0x10)) := by decide
theorem test_sknp_not_taken : after ((State.reset.setReg 1 15).setKey 15 true) 0xE1A1 (·.pc) = some 0x202 := by decide
theorem test_sknp_range : after (State.reset.setReg 1 0xFF) 0xE1A1 (fun t => (t.pc, rep t)) =
    some (0x200, some (.keyIndexRange 0xFF)) := by decide
-- AL2, AL4, AL7, AL8 to AL10
theorem test_ldImm_vf : after State.reset 0x6FFF (fun t => (t.reg vf, t.pc)) = some (0xFF, 0x202) := by decide
theorem test_addImm_wraps : after ((withAB 0xFF 0).setReg vf 7) 0x7A02 (fun t => (t.reg 0xA, t.reg vf)) =
    some (1, 7) := by decide
theorem test_ldReg : after (withAB 1 0x99) 0x8AB0 (fun t => (t.reg 0xA, t.reg 0xB)) = some (0x99, 0x99) := by decide
theorem test_orReg : after ((withAB 0x0F 0xF0).setReg vf 5) 0x8AB1 (fun t => (t.reg 0xA, t.reg vf)) =
    some (0xFF, 5) := by decide
theorem test_andReg : after ((withAB 0x3C 0x0F).setReg vf 5) 0x8AB2 (fun t => (t.reg 0xA, t.reg vf)) =
    some (0x0C, 5) := by decide
theorem test_xorReg : after ((withAB 0xFF 0x0F).setReg vf 5) 0x8AB3 (fun t => (t.reg 0xA, t.reg vf)) =
    some (0xF0, 5) := by decide
-- AL13, AL16, AL19, AL20
theorem test_addReg_no_carry : after ((withAB 0x80 0x7F).setReg vf 1) 0x8AB4 (fun t => (t.reg 0xA, t.reg vf)) =
    some (0xFF, 0) := by decide
theorem test_addReg_flag_wins : after ((withAB 0 0x20).setReg vf 0xF0) 0x8FB4 (·.reg vf) = some 1 := by decide
theorem test_sub_borrow : after (withAB 1 2) 0x8AB5 (fun t => (t.reg 0xA, t.reg vf)) = some (0xFF, 0) := by decide
theorem test_sub_equal : after ((withAB 5 5).setReg vf 1) 0x8AB5 (fun t => (t.reg 0xA, t.reg vf)) =
    some (0, 0) := by decide
-- AL25, AL29, AL30, AL31, AL34, AL38
theorem test_shr : after (withAB 0x81 0xFF) 0x8AB6 (fun t => (t.reg 0xA, t.reg 0xB, t.reg vf)) =
    some (0x40, 0xFF, 1) := by decide
theorem test_shr_flag_wins : after (State.reset.setReg vf 2) 0x8FB6 (·.reg vf) = some 0 := by decide
theorem test_subn : after (withAB 2 5) 0x8AB7 (fun t => (t.reg 0xA, t.reg vf)) = some (3, 1) := by decide
theorem test_subn_borrow : after (withAB 5 2) 0x8AB7 (fun t => (t.reg 0xA, t.reg vf)) = some (0xFD, 0) := by decide
theorem test_shl : after (withAB 0x81 0xFF) 0x8ABE (fun t => (t.reg 0xA, t.reg 0xB, t.reg vf)) =
    some (2, 0xFF, 1) := by decide
theorem test_shl_flag_wins : after (State.reset.setReg vf 0x7F) 0x8FBE (·.reg vf) = some 0 := by decide
-- AL41 (for every draw)
theorem test_rnd_masks : after (State.reset.setReg 3 9) 0xC300 (fun t => (t.reg 3 &&& 0xFF, t.pc)) =
    some (0, 0x202) := by
  show some (((Config.rnd 0 &&& 0#8) &&& 0xFF#8), 0x202#16) = some (0, 0x202)
  simp
-- IM1, IM3, IM4, IM10
theorem test_ldI : after State.reset 0xAFFF (·.i) = some 0xFFF := by decide
theorem test_addI_past_12_bits : after ((State.reset.setI 0xFFF).setReg 2 1) 0xF21E (fun t => (t.i, t.reg vf)) =
    some (0x1000, 0) := by decide
theorem test_addI_wraps : after ((State.reset.setI 0xFFFF).setReg 2 2) 0xF21E (·.i) = some 1 := by decide
theorem test_ldF_unmasked : after (State.reset.setReg 3 0xFF) 0xF329 (·.i) = some 0x04FB := by decide
-- IM17, IM20
theorem test_ldB : after ((State.reset.setI 0x300).setReg 4 234) 0xF433
    (fun t => (t.byte 0x300, t.byte 0x301, t.byte 0x302, t.i)) = some (2, 3, 4, 0x300) := by decide
theorem test_ldB_bounds : after ((State.reset.setI 0xFFE).setReg 4 255) 0xF433
    (fun t => (t.byte 0xFFE, t.pc, rep t)) = some (0, 0x200, some (.memoryBounds 0xFFE)) := by decide
-- IM22, IM23
theorem test_storeRegs_top : after ((State.reset.setI 0xFFF).setReg 0 0xAB) 0xF055 (fun t => (t.byte 0xFFF, t.i)) =
    some (0xAB, 0x1000) := by decide
theorem test_storeRegs_bounds : after ((State.reset.setI 0xFFF).setReg 0 0xAB) 0xF155
    (fun t => (t.byte 0xFFF, t.i, rep t)) = some (0, 0xFFF, some (.memoryBounds 0xFFF)) := by decide
-- IM26, IM27 (default font)
theorem test_loadRegs : after ((withI 0x300 [2, 3, 4, 5]).setReg 3 0x77) 0xF265
    (fun t => (t.regsUpTo 3, t.i)) = some ([2, 3, 4, 0x77], 0x303) := by decide
theorem test_loadRegs_font : after State.reset 0xFF65 (fun t => (t.regsUpTo 4, t.reg vf, t.i)) =
    some ([0xF0, 0x90, 0x90, 0x90, 0xF0], 0xF0, 0x10) := by decide
-- DR13
theorem test_cls : after ((State.reset.setReg vf 1).setFb (blit Framebuffer.blank [(3, 3)]).1) 0x00E0
    (fun t => (t.pixel 3 3, t.reg vf, t.dirty, t.pc)) = some (false, 1, true, 0x202) := by decide
-- R154's example, DR7
theorem test_drw_wraps : after (((withI 0x300 [0xC3, 0x81]).setReg 0 62).setReg 1 31) 0xD012
    (fun t => (t.fb == (blit Framebuffer.blank [(31, 62), (31, 63), (31, 4), (31, 5), (0, 62), (0, 5)]).1,
      t.reg vf, t.dirty)) = some (true, 0, true) := by decide
theorem test_drw_collides : after ((withI 0x300 [0xC0]).setFb (blit Framebuffer.blank [(0, 1)]).1) 0xD011
    (fun t => (t.pixel 0 0, t.pixel 0 1, t.reg vf)) = some (true, false, 1) := by decide
-- TK1, TK14, TK15
theorem test_ldVxDt : after (State.reset.setDt 1) 0xF107 (fun t => (t.reg 1, t.dt)) = some (1, 0) := by decide
theorem test_ldVxK_waits : after (((State.reset.setReg 2 0x55).setSt 3).setDt 3) 0xF20A
    (fun t => (t.pc, t.reg 2, t.st, t.dt, t.out.result)) =
    some (0x200, 0x55, 2, 2, some (.executed (some 0xF20A) none true)) := by decide
theorem test_ldVxK_least : after ((State.reset.setKey 3 true).setKey 9 true) 0xF20A (fun t => (t.reg 2, t.pc)) =
    some (3, 0x202) := by decide
-- TK6, TK9, TK8
theorem test_ldDtVx : after (State.reset.setReg 0 255) 0xF015 (·.dt) = some 254 := by decide
theorem test_ldStVx_beeps : after (State.reset.setReg 0 2) 0xF018 (fun t => (t.st, t.out.result)) =
    some (1, some (.executed (some 0xF018) none true)) := by decide
theorem test_ldStVx_silent : after (State.reset.setReg 0 1) 0xF018 (fun t => (t.st, t.out.result)) =
    some (0, some (.executed (some 0xF018) none false)) := by decide

/-! The cycle and the driver's moves. -/

/-- What the step of a state answers, looked at through `f`. -/
def afterStep {α : Type} (s : State) (f : State → α) : Option α :=
  match step s with
  | .next t => some (f t)
  | .fault _ => none
  | .refused _ => none

-- ST1
theorem test_gated : afterStep (((State.reset.setGate false).setDt 2).setSchedule [[]])
    (fun t => (t.pc, t.dt, t.out.result)) = some (0x200, 2, some .gated) := by decide
-- ST4, ST5
theorem test_fetch_bounds : afterStep ((State.reset.setPc 0x1000).setDt 2)
    (fun t => (t.pc, t.dt, t.out.result)) =
    some (0x1000, 1, some (.executed none (some .fetchBounds) false)) := by decide
-- ST7
theorem test_power_on_step : afterStep State.reset (fun t => (t.pc, t.out.result, t.out.everReported)) =
    some (0x200, some (.executed (some 0) (some (.invalidOpcode 0)) false), true) := by decide
-- LP4 and a step of what was loaded (R226)
theorem test_load_then_step : afterStep (State.reset.setSchedule [[.loadProgram [0x60, 0x05], .tick]])
    (fun t => (t.reg 0, t.pc, t.out.loadReport)) = some (5, 0x202, none) := by decide
-- R195: an index above 15 is refused
theorem test_setKey_refused : afterStep (State.reset.setSchedule [[.setKey 16 true]]) (·.pc) = none := by decide
-- KY1
theorem test_setKey : afterStep (State.reset.setSchedule [[.setKey 5 true, .tick]]) (·.key 5) = some true := by decide
-- TF1
theorem test_takeFramebuffer :
    afterStep ((State.reset.setDirty true).setSchedule [[.takeFramebuffer, .tick]])
      (fun t => (t.dirty, t.out.frame.map Prod.snd)) = some (false, some true) := by decide
-- RS1
theorem test_reset_op : afterStep (((((State.reset.setPc 0x2A0).setSp 3).setDt 7).setMem [(0x50, 0x99)]).setSchedule
    [[.reset, .tick]]) (fun t => (t.sp, t.dirty, t.byte 0x50)) = some (0, true, 0x99) := by decide

/-! Witnesses: for each statement of Certificates/Slice0/Obligations.lean that has hypotheses, a state and operands
that meet them all; for one with several clauses, each clause at a boundary value of its range. -/

/-- Power-on with the word `w` at 0x200 and a tick due. -/
def holding (w : Nat) : State := State.reset.withFetchWord 16 w

/-- The state that a step of `s` from power-on's schedule starts with: the tick has opened the gate. -/
def ticked (s : State) : State := (s.setSchedule []).setGate true

-- EncodeDecodeRoundTrip, DecoderRefusesInvalidWords, FetchIsBigEndian
theorem test_witness_encodeDecode : ∃ w i, decode w = .instr i := ⟨0xF265, .loadRegs 2, by decide⟩
theorem test_witness_invalidWord : validWord 0x00DF = false ∧ validWord 0xFFFF = false := by decide
theorem test_witness_validWord : validWord 0x00E0 = true ∧ validWord 0xFF65 = true := by decide
theorem test_witness_fetch : (State.reset.setPc 0xFFE).pc.toNat ≤ 0xFFE := by decide
theorem test_witness_fetch_above : 0xFFE < (State.reset.setPc 0xFFF).pc.toNat := by decide

-- the encodings in JumpGoesToTarget, SkipOnImmediate, SkipOnRegisters, ImmediateLoadAndAdd, LoadIndex
theorem test_witness_wordNnn : (0x1FFF : Word) &&& 0xF000 = 0x1000 ∧ (0xA300 : Word) &&& 0xF000 = 0xA000 := by decide
theorem test_witness_wordKk : (0x3A42 : Word) &&& 0xF000 = 0x3000 ∧ (0x4A42 : Word) &&& 0xF000 = 0x4000 ∧
    (0x6A42 : Word) &&& 0xF000 = 0x6000 ∧ (0x7A42 : Word) &&& 0xF000 = 0x7000 := by decide
theorem test_witness_wordXy : (0x5AB0 : Word) &&& 0xF00F = 0x5000 ∧ (0x9AB0 : Word) &&& 0xF00F = 0x9000 := by decide
theorem test_witness_wordXy_invalid : (0x5121 : Word) &&& 0xF000 = 0x5000 ∧ fieldN 0x5121 ≠ 0 ∧
    (0x912F : Word) &&& 0xF000 = 0x9000 ∧ fieldN 0x912F ≠ 0 := by decide

-- StepRunsDecodedInstruction, DriverTurnTakesTheSchedule, NothingStopsTheMachine
theorem test_witness_stepRuns : ∃ s u w i t, driverTurn s = .next u ∧ u.gateOpen = true ∧ fetch u = some w ∧
    decode w = .instr i ∧ exec i (beginStep u) = .next t :=
  ⟨holding 0x1234, ticked (holding 0x1234), 0x1234, .jp 0x234, _, rfl, rfl, by decide, by decide, rfl⟩
theorem test_witness_schedule_empty : State.reset.schedule = [] := rfl
theorem test_witness_schedule : (State.reset.setSchedule [[.reset, .tick], []]).schedule = [.reset, .tick] :: [[]] := rfl
theorem test_witness_hostOps : ∃ s op t, hostOp op s = .next t := ⟨State.reset, .setKey 15 true, _, rfl⟩
theorem test_witness_hostOps_refused : ∃ s op r, hostOp op s = .refused r :=
  ⟨State.reset, .setKey 16 true, .setKeyIndex 16, rfl⟩
theorem test_witness_driverTurn : driverTurn State.reset = .next (ticked State.reset) := rfl

-- GatedStepChangesNothing, FetchBoundsStep, InvalidOpcodeStep
theorem test_witness_gated : ∃ s u, driverTurn s = .next u ∧ u.gateOpen = false :=
  ⟨(State.reset.setGate false).setSchedule [[]], _, rfl, rfl⟩
theorem test_witness_fetchBounds : ∃ s u, driverTurn s = .next u ∧ u.gateOpen = true ∧ 0xFFE < u.pc.toNat :=
  ⟨State.reset.setPc 0xFFF, ticked (State.reset.setPc 0xFFF), rfl, rfl, by decide⟩
theorem test_witness_invalidOpcode : ∃ s u w, driverTurn s = .next u ∧ u.gateOpen = true ∧ fetch u = some w ∧
    validWord w = false :=
  ⟨holding 0xF175, ticked (holding 0xF175), 0xF175, rfl, rfl, by decide, by decide⟩

-- TimersCountDownOnExecutedSteps: an instruction, and the fetch above 0xFFE
theorem test_witness_timers : ∃ s u t, driverTurn s = .next u ∧ u.gateOpen = true ∧ step s = .next t ∧
    (∀ w i, fetch u = some w → decode w = .instr i → setsTimer i = false) := by
  refine ⟨holding 0x1234, ticked (holding 0x1234), _, rfl, rfl, rfl, ?_⟩
  intro w i hf hd
  have hw : fetch (ticked (holding 0x1234)) = some 0x1234 := by decide
  have hi : decode 0x1234 = .instr (.jp 0x234) := by decide
  rw [hw] at hf
  cases hf
  rw [hi] at hd
  cases hd
  rfl
theorem test_witness_timers_no_word : ∃ s u t, driverTurn s = .next u ∧ u.gateOpen = true ∧ step s = .next t ∧
    (∀ w i, fetch u = some w → decode w = .instr i → setsTimer i = false) := by
  refine ⟨State.reset.setPc 0xFFF, ticked (State.reset.setPc 0xFFF), _, rfl, rfl, rfl, ?_⟩
  intro w i hf
  cases (show fetch (ticked (State.reset.setPc 0xFFF)) = none by decide) ▸ hf

-- SetTimerCountsDownAtOnce
theorem test_witness_setDt : ∃ s u w, driverTurn s = .next u ∧ u.gateOpen = true ∧ fetch u = some w ∧
    decode w = .instr (.ldDtVx 0) :=
  ⟨holding 0xF015, ticked (holding 0xF015), 0xF015, rfl, rfl, by decide, by decide⟩
theorem test_witness_setSt : ∃ s u w, driverTurn s = .next u ∧ u.gateOpen = true ∧ fetch u = some w ∧
    decode w = .instr (.ldStVx 0) :=
  ⟨holding 0xF018, ticked (holding 0xF018), 0xF018, rfl, rfl, by decide, by decide⟩

-- BeepIffSoundTimerRuns, StepLeavesGateClosed, ReportMarkIsPermanent (both ways round)
theorem test_witness_beep : ∃ s t w r, step s = .next t ∧ t.out.result = some (.executed w r true) :=
  ⟨(holding 0x1234).setSt 2, _, _, _, rfl, rfl⟩
theorem test_witness_step : ∃ s t, step s = .next t := ⟨State.reset, _, rfl⟩
theorem test_witness_report : ∃ s t w r b, step s = .next t ∧ t.out.result = some (.executed w (some r) b) :=
  ⟨State.reset, _, some 0, .invalidOpcode 0, false, rfl, rfl⟩

-- ReportingInstructionChangesNothing, ReportsByInstruction: each instruction that can report, at its boundary
theorem test_witness_report_call : ∃ s t, s.out.report = none ∧ exec (.call 0x300) s = .next t ∧
    t.out.report = some .stackOverflow :=
  ⟨State.reset.setSp 15, _, rfl, rfl, rfl⟩
theorem test_witness_report_ret : ∃ s t, s.out.report = none ∧ exec .ret s = .next t ∧
    t.out.report = some .stackUnderflow :=
  ⟨State.reset, _, rfl, rfl, rfl⟩
theorem test_witness_report_drw : ∃ s t, s.out.report = none ∧ exec (.drw 0 0 2) s = .next t ∧
    t.out.report = some (.memoryBounds 0xFFF) :=
  ⟨State.reset.setI 0xFFF, _, rfl, rfl, rfl⟩
theorem test_witness_report_ldB : ∃ s t, s.out.report = none ∧ exec (.ldB 4) s = .next t ∧
    t.out.report = some (.memoryBounds 0xFFE) :=
  ⟨State.reset.setI 0xFFE, _, rfl, rfl, rfl⟩
theorem test_witness_report_storeRegs : ∃ s t, s.out.report = none ∧ exec (.storeRegs 1) s = .next t ∧
    t.out.report = some (.memoryBounds 0xFFF) :=
  ⟨State.reset.setI 0xFFF, _, rfl, rfl, rfl⟩
theorem test_witness_report_loadRegs : ∃ s t, s.out.report = none ∧ exec (.loadRegs 15) s = .next t ∧
    t.out.report = some (.memoryBounds 0xFF1) :=
  ⟨State.reset.setI 0xFF1, _, rfl, rfl, rfl⟩
theorem test_witness_report_skp : ∃ s t, s.out.report = none ∧ exec (.skp 1) s = .next t ∧
    t.out.report = some (.keyIndexRange 16) :=
  ⟨State.reset.setReg 1 16, _, rfl, rfl, rfl⟩
theorem test_witness_report_sknp : ∃ s t, s.out.report = none ∧ exec (.sknp 1) s = .next t ∧
    t.out.report = some (.keyIndexRange 255) :=
  ⟨State.reset.setReg 1 255, _, rfl, rfl, rfl⟩

-- StackLimitsReport, CallPushesReturnAddress, ReturnPopsReturnAddress, KeyIndexReport
theorem test_witness_sp : (State.reset.setSp 15).sp.toNat = 15 ∧ State.reset.sp.toNat = 0 ∧
    (State.reset.setSp 14).sp.toNat ≤ 14 ∧ 1 ≤ (State.reset.setSp 1).sp.toNat := by decide
theorem test_witness_keyIndex : 15 < ((State.reset.setReg 1 16).reg 1).toNat := by decide

-- BlockBoundsReport: the first `I` at which each block does not exist
theorem test_witness_no_block3 : ¬ BlockExists (State.reset.setI 0xFFE) 3 := by unfold BlockExists; decide
theorem test_witness_no_block1 : ¬ BlockExists (State.reset.setI 0x1000) ((0 : Nibble).toNat + 1) := by
  unfold BlockExists; decide
theorem test_witness_no_block16 : ¬ BlockExists (State.reset.setI 0xFF1) ((15 : Nibble).toNat + 1) := by
  unfold BlockExists; decide
theorem test_witness_no_sprite : ¬ BlockExists (State.reset.setI 0xFFF) (2 : Nibble).toNat := by
  unfold BlockExists; decide

-- StoreDecimalDigits, StoreRegisters, LoadRegisters, DrawSprite: the last `I` at which each block exists
theorem test_witness_block3 : BlockExists (State.reset.setI 0xFFD) 3 := by unfold BlockExists; decide
theorem test_witness_block1 : BlockExists (State.reset.setI 0xFFF) ((0 : Nibble).toNat + 1) := by
  unfold BlockExists; decide
theorem test_witness_block16 : BlockExists (State.reset.setI 0xFF0) ((15 : Nibble).toNat + 1) := by
  unfold BlockExists; decide
theorem test_witness_sprite0 : BlockExists (State.reset.setI 0xFFFF) (0 : Nibble).toNat := by
  unfold BlockExists; decide

-- CallReturnRoundTrip, StoreLoadRoundTrip
theorem test_witness_callReturn : ∃ (s t u : State), s.sp.toNat ≤ 14 ∧ exec (.call 0x300) s = .next t ∧ u.sp = t.sp ∧
    u.slot t.sp = t.slot t.sp := by
  refine ⟨State.reset.setSp 14, _, _, by decide, rfl, rfl, rfl⟩
theorem test_witness_storeLoad : ∃ s t u : State, BlockExists s ((2 : Nibble).toNat + 1) ∧
    exec (.storeRegs 2) s = .next t ∧ (∀ a, u.byte a = t.byte a) ∧ u.i = s.i := by
  refine ⟨State.reset.setI 0xFFD, _, State.setI _ 0xFFD, by unfold BlockExists; decide, rfl, fun _ => rfl, rfl⟩
-- FetchSeesStores: both bytes stored; only the one at `PC + 1`; only the one at `PC`; and each of the other writers
theorem test_witness_fetchSees_both : ∃ s t : State, t.pc.toNat ≤ 0xFFE ∧ BlockExists s ((1 : Nibble).toNat + 1) ∧
    exec (.storeRegs 1) s = .next t ∧ t.pc.toNat = s.i.toNat := by
  refine ⟨State.reset.setI 0x202, _, ?_, by unfold BlockExists; decide, rfl, rfl⟩
  decide
theorem test_witness_fetchSees_low : ∃ s t : State, t.pc.toNat ≤ 0xFFE ∧ BlockExists s ((0 : Nibble).toNat + 1) ∧
    exec (.storeRegs 0) s = .next t ∧ t.pc.toNat + 1 = s.i.toNat := by
  refine ⟨(State.reset.setPc 0xFFC).setI 0xFFF, _, ?_, by unfold BlockExists; decide, rfl, rfl⟩
  decide
theorem test_witness_fetchSees_high : ∃ s t : State, t.pc.toNat ≤ 0xFFE ∧ BlockExists s ((15 : Nibble).toNat + 1) ∧
    exec (.storeRegs 15) s = .next t ∧ t.pc.toNat = s.i.toNat + 15 := by
  refine ⟨State.reset.setI 0x1F3, _, ?_, by unfold BlockExists; decide, rfl, rfl⟩
  decide
theorem test_witness_fetchSees_ldB : ∃ s t : State, t.pc.toNat ≤ 0xFFE ∧ BlockExists s 3 ∧
    exec (.ldB 4) s = .next t ∧ t.pc.toNat = s.i.toNat + 2 := by
  refine ⟨State.reset.setI 0x200, _, ?_, by unfold BlockExists; decide, rfl, rfl⟩
  decide
theorem test_witness_fetchSees_load : ∃ s t : State, t.pc.toNat ≤ 0xFFE ∧ ([0x12] : List Byte).length ≤ 3584 ∧
    hostOp (.loadProgram [0x12]) s = .next t ∧ t.pc.toNat = 0x200 := by
  refine ⟨State.reset, _, ?_, by decide, rfl, rfl⟩
  decide

-- SkipOnKey, KeyWaitTakesLeastKey, KeyWaitPolls
theorem test_witness_skipOnKey : ((State.reset.setReg 1 15).reg 1).toNat = (15 : Nibble).toNat := by decide
theorem test_witness_least15 : (State.reset.setKey 15 true).key 15 = true ∧
    (∀ j : Nibble, j.toNat < (15 : Nibble).toNat → (State.reset.setKey 15 true).key j = false) := by decide
theorem test_witness_least0 : ((State.reset.setKey 0 true).setKey 9 true).key 0 = true ∧
    (∀ j : Nibble, j.toNat < (0 : Nibble).toNat → ((State.reset.setKey 0 true).setKey 9 true).key j = false) := by
  decide
theorem test_witness_no_key : ∀ k : Nibble, State.reset.key k = false := by decide

-- DrawSprite's clauses, DrawTwiceRestores
/-- Power-on with the one-row sprite 0x80 at 0x300 and `I` there: it falls on the pixel at the top left. -/
def dot : State := withI 0x300 [0x80]
theorem test_witness_spriteBit : spriteBitAt dot 0 0 1 0 0 := ⟨0, 0, by decide, by decide, by decide, by decide, by decide⟩
theorem test_witness_no_spriteBit : ¬ spriteBitAt dot 0 0 1 0 1 := by
  rintro ⟨r, c, hr, hc, hbit, hcol, hrow⟩
  have hx : (dot.reg 0).toNat = 0 := by decide
  rw [hx] at hcol
  have : c = 1 := by
    have : (1 : Fin 64).val = 1 := rfl
    omega
  subst this
  have : r = 0 := by
    have : (1 : Nibble).toNat = 1 := rfl
    omega
  subst this
  revert hbit
  decide
theorem test_witness_collision :
    ∃ row col, spriteBitAt (dot.setFb (blit Framebuffer.blank [(0, 0)]).1) 0 0 1 row col ∧
      (dot.setFb (blit Framebuffer.blank [(0, 0)]).1).pixel row col = true :=
  ⟨0, 0, ⟨0, 0, by decide, by decide, by decide, by decide, by decide⟩, by decide⟩
theorem test_witness_no_collision : ∀ row col, spriteBitAt dot 0 0 1 row col → dot.pixel row col = false := by
  have blank : ∀ row col, dot.pixel row col = false := by decide
  intro row col _
  exact blank row col
theorem test_witness_drawTwice : ∃ s t u : State, BlockExists s (1 : Nibble).toNat ∧ exec (.drw 0 0 1) s = .next t ∧
    (∀ row col, u.pixel row col = t.pixel row col) ∧ u.reg 0 = s.reg 0 ∧ u.i = s.i ∧ (∀ a, u.byte a = s.byte a) ∧
    (∃ row col, spriteBitAt s 0 0 1 row col ∧ s.pixel row col = false) := by
  refine ⟨dot, _, _, by unfold BlockExists; decide, rfl, fun _ _ => rfl, rfl, rfl, fun _ => rfl, 0, 0,
    test_witness_spriteBit, by decide⟩

-- FlagRegisterRule, SoundTimerIsNeverRead, InstructionsLeaveHostSide
theorem test_witness_noFlag : ∃ s t, exec (.ldImm 0 1) s = .next t ∧ definesFlag (.ldImm 0 1) = false ∧
    destination (.ldImm 0 1) ≠ some 0xF :=
  ⟨State.reset, _, rfl, rfl, by decide⟩
theorem test_witness_flag : ∃ s t, exec (.sub 0xF 0) s = .next t ∧ definesFlag (.sub 0xF 0) = true ∧
    s.out.report = none ∧ t.out.report = none :=
  ⟨State.reset.setReg 0xF 7, _, rfl, rfl, rfl, rfl⟩
theorem test_witness_soundTimer : ∃ s t, exec .cls s = .next t ∧ (∀ x, Instr.cls ≠ .ldStVx x) :=
  ⟨State.reset, _, rfl, fun _ h => by cases h⟩
theorem test_witness_soundTimer_set : ∃ s t x, exec (.ldStVx 3) s = .next t ∧ Instr.ldStVx 3 = .ldStVx x :=
  ⟨State.reset, _, 3, rfl, rfl⟩
theorem test_witness_dirty : ∃ s t, exec (.jp 0) s = .next t ∧ s.dirty = true := ⟨State.reset.setDirty true, _, rfl, rfl⟩

-- StepKeepsPcBounded (at its bound), StepKeepsSlotZero, StepKeepsMemoryCanonical
theorem test_witness_pcBounded : ∃ s t, PcBounded s ∧ step s = .next t :=
  ⟨(State.reset.setPc 0x10FE).setSlot 15 0x1000, _, ⟨by decide, by decide⟩, rfl⟩
theorem test_witness_slotZero : ∃ s t, s.slot 0 = 0 ∧ step s = .next t := ⟨State.reset, _, rfl, rfl⟩
theorem test_witness_canonical : ∃ s t, MemoryCanonical s ∧ s.mem ≠ [] ∧ step s = .next t :=
  ⟨withI 0x300 [1, 0, 2], _, by unfold MemoryCanonical; decide, by decide, rfl⟩

-- LoadProgramOperation, DriverInputs
theorem test_witness_program_fits : (List.replicate 3584 (1 : Byte)).length ≤ 3584 := by
  rw [List.length_replicate]
theorem test_witness_program_too_long : 3584 < (List.replicate 3585 (1 : Byte)).length := by
  rw [List.length_replicate]; decide
theorem test_witness_keyIndex_above : 15 < 16 := by decide

end Sys2Proof.Tests
end

