-- ==== Sys2Proof/Proofs/State.lean ====
section
/-! The whole-machine rules of 10_state.md: which parts of the state an instruction may touch, and the bounds on `PC`
and on the stack that every step keeps. -/

namespace Sys2Proof.Machine

/-! ## The parts an instruction may write -/

/-- The parts that no instruction names among those it writes: the host's side and the model's own (R22, R31). -/
theorem hostParts_notMem_writes (i : Instr) (s : State) :
    (∀ k, Part.key k ∉ writes s i) ∧ Part.gate ∉ writes s i ∧ Part.draws ∉ writes s i ∧
      Part.schedule ∉ writes s i := by
  cases i <;> simp [writes, byteParts, regPartsUpTo]

/-- Only LD ST, Vx names `ST` (R163). -/
theorem st_notMem_writes {i : Instr} (s : State) (hi : ∀ x, i ≠ .ldStVx x) : Part.st ∉ writes s i := by
  cases i
  case ldStVx x => exact absurd rfl (hi x)
  all_goals simp [writes, byteParts, regPartsUpTo]

/-- Only the two drawing instructions name `dirty` (R150, R151). -/
theorem dirty_notMem_writes {i : Instr} (s : State) (hcls : i ≠ .cls) (hdrw : ∀ x y n, i ≠ .drw x y n) :
    Part.dirty ∉ writes s i := by
  cases i
  case cls => exact absurd rfl hcls
  case drw x y n => exact absurd rfl (hdrw x y n)
  all_goals simp [writes, byteParts, regPartsUpTo]

theorem vf_notMem_reg_pc {x : Nibble} (hx : some x ≠ some vf) : Part.reg vf ∉ [Part.reg x, Part.pc] := by
  have hne : vf ≠ x := fun e => hx (congrArg some e.symm)
  simp [hne]

/-- An instruction that defines no flag names `VF` only as its destination (R14). LD Vx, [I] with `x` below F loads
registers below `VF`. -/
theorem vf_notMem_writes {i : Instr} (s : State) (hf : definesFlag i = false) (hd : destination i ≠ some vf) :
    Part.reg vf ∉ writes s i := by
  cases i
  case loadRegs x =>
    have hx : x ≠ vf := fun e => hd (congrArg some e)
    have hle : ¬ vf.toNat ≤ x.toNat := by
      have hlt := x.isLt
      have hne : x.toNat ≠ vf.toNat := fun e => hx (BitVec.eq_of_toNat_eq e)
      have hvf : vf.toNat = 15 := rfl
      omega
    simp [writes, mem_regPartsUpTo, hle]
  case ldImm => exact vf_notMem_reg_pc hd
  case addImm => exact vf_notMem_reg_pc hd
  case ldReg => exact vf_notMem_reg_pc hd
  case orReg => exact vf_notMem_reg_pc hd
  case andReg => exact vf_notMem_reg_pc hd
  case xorReg => exact vf_notMem_reg_pc hd
  case rnd => exact vf_notMem_reg_pc hd
  case ldVxDt => exact vf_notMem_reg_pc hd
  case ldVxK => exact vf_notMem_reg_pc hd
  case addReg => cases hf
  case sub => cases hf
  case shr => cases hf
  case subn => cases hf
  case shl => cases hf
  case drw => cases hf
  all_goals simp [writes, byteParts]

/-! ## DRW -/

/-- DRW either reports or leaves a flag in `VF` and sets `dirty` (R44, R151). -/
theorem execDrw_cases {x y n : Nibble} {s t : State} (h : execDrw x y n s = .next t) :
    t = s.raise (.memoryBounds s.i) ∨ ((t.reg vf = 0 ∨ t.reg vf = 1) ∧ t.dirty = true) := by
  unfold execDrw at h
  split at h
  · exact Or.inl ((raised_eq_next _ _ _).1 h).symm
  · rw [done_eq_next] at h
    subst h
    exact Or.inr ⟨by simpa using flagByte_zero_or_one _, rfl⟩

/-! ## VF -/

theorem writeRegFlag_vf_zero_or_one {x : Nibble} {b : Byte} {c : Bool} {s t : State}
    (h : writeRegFlag x b (flagByte c) s = .next t) : t.reg vf = 0 ∨ t.reg vf = 1 := by
  rw [writeRegFlag, done_eq_next] at h
  subst h
  simpa using flagByte_zero_or_one c

/-- A flag-defining instruction that answers no report leaves 0 or 1 in `VF` (R14). -/
theorem exec_flag_zero_or_one {i : Instr} {s t : State} (h : exec i s = .next t) (hf : definesFlag i = true)
    (quiet : t.out.report = none) : t.reg vf = 0 ∨ t.reg vf = 1 := by
  cases i
  case addReg => exact writeRegFlag_vf_zero_or_one h
  case sub => exact writeRegFlag_vf_zero_or_one h
  case shr => exact writeRegFlag_vf_zero_or_one h
  case subn => exact writeRegFlag_vf_zero_or_one h
  case shl => exact writeRegFlag_vf_zero_or_one h
  case drw =>
    rcases execDrw_cases h with rfl | ⟨hv, -⟩
    · cases quiet
    · exact hv
  all_goals cases hf

/-- Settles O49: the frame of the instruction where it defines no flag, the flags' range where it defines one. -/
theorem flagRegisterRule : Obligations.FlagRegisterRule := by
  intro i s t h
  exact ⟨fun hf hd => (exec_frame i s t h).regs _ (vf_notMem_writes s hf hd),
    fun hf _ quiet => exec_flag_zero_or_one h hf quiet⟩

/-! ## The host's side -/

/-- No instruction clears `dirty` (R30): DRW and CLS set it or report, the others leave it. -/
theorem exec_keeps_dirty {i : Instr} {s t : State} (h : exec i s = .next t) (hs : s.dirty = true) :
    t.dirty = true := by
  by_cases hcls : i = .cls
  · subst hcls
    rw [exec, execCls, done_eq_next] at h
    subst h
    rfl
  by_cases hdrw : ∃ x y n, i = .drw x y n
  · obtain ⟨x, y, n, rfl⟩ := hdrw
    rcases execDrw_cases h with rfl | ⟨-, hd⟩
    · exact hs
    · exact hd
  · have hn : ∀ x y n, i ≠ .drw x y n := fun x y n e => hdrw ⟨x, y, n, e⟩
    exact ((exec_frame i s t h).dirty (dirty_notMem_writes s hcls hn)).trans hs

/-- Settles O51: from the frame of every instruction. -/
theorem instructionsLeaveHostSide : Obligations.InstructionsLeaveHostSide := by
  intro i s t h
  have frame := exec_frame i s t h
  obtain ⟨hkey, hgate, hdraws, hsched⟩ := hostParts_notMem_writes i s
  exact ⟨fun k => frame.keys k (hkey k), frame.gate hgate, exec_keeps_dirty h, frame.draws hdraws,
    frame.schedule hsched⟩

/-! ## ST

`ST` is never read: every meaning but LD ST, Vx commutes with putting another `ST` in the state. -/

/-- An outcome with another `ST` in its next state. -/
def withSt (b : Byte) : Host.Outcome State Fault Refusal → Host.Outcome State Fault Refusal
  | .next t => .next (t.setSt b)
  | .fault r => .fault r
  | .refused r => .refused r

theorem State.skipIf_setSt (s : State) (b : Byte) (c : Bool) : (s.setSt b).skipIf c = (s.skipIf c).setSt b := by
  cases c <;> rfl

theorem State.readBlock_setSt (s : State) (b : Byte) (a n : Nat) : (s.setSt b).readBlock a n = s.readBlock a n := rfl

theorem State.writeBlock_setSt (s : State) (b : Byte) (a : Nat) (bytes : List Byte) :
    (s.setSt b).writeBlock a bytes = (s.writeBlock a bytes).map (fun t => t.setSt b) := by
  unfold State.writeBlock
  split <;> rfl

theorem skip_setSt (s : State) (b : Byte) (c : Bool) :
    done ((s.setSt b).skipIf c) = withSt b (done (s.skipIf c)) := by
  rw [State.skipIf_setSt]
  rfl

theorem skipOnKey_setSt (x : Nibble) (wanted : Bool) (s : State) (b : Byte) :
    skipOnKey x wanted (s.setSt b) = withSt b (skipOnKey x wanted s) := by
  unfold skipOnKey
  rw [show keyOperand (s.setSt b) x = keyOperand s x from rfl]
  cases keyOperand s x
  · rfl
  · exact skip_setSt s b _

/-- Every instruction but LD ST, Vx does the same whatever `ST` is (R20, R191). -/
theorem exec_setSt {i : Instr} (hi : ∀ x, i ≠ .ldStVx x) (s : State) (b : Byte) :
    exec i (s.setSt b) = withSt b (exec i s) := by
  cases i
  case ldStVx x => exact absurd rfl (hi x)
  case seImm => exact skip_setSt s b _
  case sneImm => exact skip_setSt s b _
  case seReg => exact skip_setSt s b _
  case sneReg => exact skip_setSt s b _
  case skp => exact skipOnKey_setSt _ _ s b
  case sknp => exact skipOnKey_setSt _ _ s b
  case ret =>
    simp only [exec, execRet, State.setSt_sp, apply_ite (withSt b)]
    rfl
  case call =>
    simp only [exec, execCall, State.setSt_sp, apply_ite (withSt b)]
    rfl
  case ldVxK =>
    simp only [exec, execLdVxK, show leastKey (s.setSt b) = leastKey s from rfl]
    split <;> rfl
  case drw =>
    simp only [exec, execDrw, show indexBase (s.setSt b) = indexBase s from rfl, State.readBlock_setSt]
    split <;> rfl
  case loadRegs =>
    simp only [exec, execLoadRegs, show indexBase (s.setSt b) = indexBase s from rfl, State.readBlock_setSt]
    split <;> rfl
  case ldB x =>
    simp only [exec, execLdB, show indexBase (s.setSt b) = indexBase s from rfl, State.reg_setSt,
      State.writeBlock_setSt]
    cases s.writeBlock (indexBase s) (decimalDigits (s.reg x)) <;> rfl
  case storeRegs x =>
    simp only [exec, execStoreRegs, show indexBase (s.setSt b) = indexBase s from rfl,
      show (s.setSt b).regsUpTo x = s.regsUpTo x from rfl, State.writeBlock_setSt]
    cases s.writeBlock (indexBase s) (s.regsUpTo x) <;> rfl
  all_goals rfl

/-- Settles O50: by the commutation of every meaning with another `ST`. -/
theorem soundTimerIsNeverRead : Obligations.SoundTimerIsNeverRead := by
  intro i s t b h
  constructor
  · intro hi
    exact ⟨(exec_frame i s t h).st (st_notMem_writes s hi), by rw [exec_setSt hi, h]; rfl⟩
  · rintro ⟨x, rfl⟩
    exact h

/-! ## The bounds on PC and the stack -/

theorem zext16_toNat_le {w : Nat} (v : BitVec w) : (zext16 v).toNat ≤ v.toNat := by
  rw [zext16, BitVec.toNat_setWidth]
  exact Nat.mod_le _ _

/-- A word is fetched only where both its bytes exist (R83). -/
theorem pc_le_of_fetch {s : State} {w : Word} (h : fetch s = some w) : s.pc.toNat ≤ 0xFFE := by
  unfold fetch at h
  split at h
  · rename_i hr
    have := (State.readBlock_cases hr).2
    omega
  · cases h

/-- An instruction that was fetched keeps the bounds of R16 and R102: the largest `PC` is the largest target of
JP V0, nnn, which is 0xFFF + 0xFF. -/
theorem exec_keeps_pcBounded {i : Instr} {s t : State} (hs : PcBounded s) (hpc : s.pc.toNat ≤ 0xFFE)
    (h : exec i s = .next t) : PcBounded t := by
  obtain ⟨-, hslot⟩ := hs
  have target (nnn : Addr) : (zext16 nnn).toNat ≤ 0xFFF := (zext16_toNat_le nnn).trans (by omega)
  constructor
  · rcases exec_pc i s t h with e | e | e | ⟨nnn, e⟩ | ⟨k, e⟩ | ⟨nnn, e⟩ <;> rw [e]
    · omega
    · bv_omega
    · bv_omega
    · have := target nnn
      omega
    · have := hslot k
      omega
    · have := target nnn
      have : (zext16 (s.reg 0)).toNat ≤ 0xFF := (zext16_toNat_le (s.reg 0)).trans (by omega)
      rw [BitVec.toNat_add]
      omega
  · intro k
    rcases exec_slot i s t h k with e | ⟨e, -⟩ <;> rw [e]
    · exact hslot k
    · bv_omega

theorem PcBounded.of_eq {s t : State} (hs : PcBounded s) (hpc : t.pc = s.pc) (hslot : ∀ k, t.slot k = s.slot k) :
    PcBounded t := by
  simpa only [PcBounded, hpc, hslot] using hs

theorem driverTurn_keeps_pcBounded {s t : State} (hs : PcBounded s) (h : driverTurn s = .next t) : PcBounded t :=
  driverTurn_keeps (P := fun pc slot _ => pc.toNat ≤ 0x10FE ∧ ∀ k, (slot k).toNat ≤ 0x1000)
    (fun _ _ _ _ _ hp => hp) (fun _ _ _ _ => ⟨by decide, fun _ => Nat.zero_le _⟩) s t hs h

/-- Settles O52: only a fetched instruction moves `PC` or writes a slot, and it was fetched at most at 0xFFE. -/
theorem stepKeepsPcBounded : Obligations.StepKeepsPcBounded := by
  intro s t hs h
  refine step_rest (P := PcBounded) h (fun u hu => driverTurn_keeps_pcBounded hs hu)
    (fun u hu => hu.of_eq (gatedStep_pc u) (slot_gatedStep u)) (fun u _ _ hu => hu.of_eq (by simp) (by simp)) ?_
  intro u w i z hu hf _ hx
  have begun : PcBounded (beginStep u) := hu.of_eq (beginStep_pc u) (slot_beginStep u)
  have ran : PcBounded z := exec_keeps_pcBounded begun (pc_le_of_fetch hf) hx
  exact ran.of_eq (endStep_pc z _) (slot_endStep z _)

theorem driverTurn_keeps_slotZero {s t : State} (hs : s.slot 0 = 0) (h : driverTurn s = .next t) : t.slot 0 = 0 :=
  driverTurn_keeps (P := fun _ slot _ => slot 0 = 0) (fun _ _ _ _ _ hp => hp) (fun _ _ _ _ => rfl) s t hs h

/-- Settles O53: an instruction that writes a slot writes one other than slot 0. -/
theorem stepKeepsSlotZero : Obligations.StepKeepsSlotZero := by
  intro s t hs h
  refine step_rest (P := fun u => u.slot 0 = 0) h (fun u hu => driverTurn_keeps_slotZero hs hu)
    (fun u hu => by simpa using hu) (fun u _ _ hu => by simpa using hu) ?_
  intro u w i z hu _ _ hx
  rcases exec_slot i (beginStep u) z hx 0 with e | ⟨-, hne⟩
  · calc (endStep (some w) z).slot 0 = z.slot 0 := slot_endStep z _ 0
      _ = (beginStep u).slot 0 := e
      _ = u.slot 0 := slot_beginStep u 0
      _ = 0 := hu
  · exact absurd rfl hne

end Sys2Proof.Machine
end

