-- ==== Sys2Proof/Proofs/Memory.lean ====
section
/-! The rules of 20_memory.md: what the fetch reads, what an access outside memory reports, that the fetch sees every
store, and the canonical form of memory that every step keeps. -/

namespace Sys2Proof.Machine

/-! ## The canonical form -/

theorem MemoryCanonical.of_eq {s t : State} (hs : MemoryCanonical s) (hm : t.mem = s.mem) : MemoryCanonical t := by
  rwa [MemoryCanonical, hm]

/-- An instruction keeps the canonical form: a block that it writes lies in memory (R44). -/
theorem exec_keeps_memoryCanonical {i : Instr} {s t : State} (hs : MemoryCanonical s) (h : exec i s = .next t) :
    MemoryCanonical t := by
  rcases exec_memory i s t h with hm | ⟨a, bs, hb, hm⟩
  · exact hs.of_eq hm
  · rw [MemoryCanonical, hm]
    exact Memory.wf_writeBytes _ _ _ hs (hb.imp_left List.length_eq_zero_iff.1)

/-- The driver's turn keeps the canonical form: a payload that `loadProgram` accepts ends at 0xFFF at most (R196). -/
theorem driverTurn_keeps_memoryCanonical {s t : State} (hs : MemoryCanonical s) (h : driverTurn s = .next t) :
    MemoryCanonical t :=
  driverTurn_keeps (P := fun _ _ m => m.wf = true)
    (fun _ _ _ _ hl hm => Memory.wf_writeBytes _ _ _ hm (Or.inr (by omega))) (fun _ _ _ hm => hm) s t hs h

/-- Settles O54: in a step only the driver's turn and the instruction write memory, and each keeps its form. -/
theorem stepKeepsMemoryCanonical : Obligations.StepKeepsMemoryCanonical := by
  intro s t hs h
  refine step_rest (P := MemoryCanonical) h (fun u hu => driverTurn_keeps_memoryCanonical hs hu)
    (fun u hu => hu.of_eq (gatedStep_mem u)) (fun u _ _ hu => hu.of_eq (by simp)) ?_
  intro u w i z hu _ _ hx
  have begun : MemoryCanonical (beginStep u) := hu.of_eq (beginStep_mem u)
  have ran : MemoryCanonical z := exec_keeps_memoryCanonical begun hx
  exact ran.of_eq (endStep_mem z _)

/-! ## The fetch -/

/-- Up to 0xFFE the fetch reads the two bytes from `PC` on, the lower address high (R45). -/
theorem fetch_eq_some {s : State} (h : s.pc.toNat ≤ 0xFFE) :
    fetch s = some (s.byte s.pc.toNat ++ s.byte (s.pc.toNat + 1)) := by
  rw [fetch, State.readBlock_eq_some s _ 2 (Or.inr (by omega))]
  rfl

/-- Above 0xFFE there is nothing to fetch (R83). -/
theorem fetch_eq_none {s : State} (h : 0xFFE < s.pc.toNat) : fetch s = none := by
  rw [fetch, (State.readBlock_eq_none s _ 2).2 ⟨by decide, by omega⟩]

/-- Settles O5: the two bytes at `PC` exist exactly up to `PC` = 0xFFE. -/
theorem fetchIsBigEndian : Obligations.FetchIsBigEndian :=
  fun _ => ⟨fetch_eq_some, fetch_eq_none⟩

/-! ## Blocks at I -/

/-- What a block write at `I` does where the block exists. -/
theorem State.writeBlock_of_blockExists {s : State} {bs : List Byte} (h : BlockExists s bs.length) :
    s.writeBlock (indexBase s) bs = some (s.setMem (s.mem.writeBytes s.i.toNat bs)) :=
  s.writeBlock_eq_some _ bs h

theorem State.writeBlock_of_not_blockExists {s : State} {bs : List Byte} (h : ¬ BlockExists s bs.length) :
    s.writeBlock (indexBase s) bs = none := by
  rw [State.writeBlock_eq_none, indexBase]
  rw [BlockExists] at h
  omega

theorem State.readBlock_of_not_blockExists {s : State} {n : Nat} (h : ¬ BlockExists s n) :
    s.readBlock (indexBase s) n = none := by
  rw [State.readBlock_eq_none, indexBase]
  rw [BlockExists] at h
  omega

/-! ## A block outside memory -/

theorem exec_ldB_outside {x : Nibble} {s : State} (h : ¬ BlockExists s 3) :
    exec (.ldB x) s = raised s (.memoryBounds s.i) := by
  have hw := State.writeBlock_of_not_blockExists (bs := decimalDigits (s.reg x)) h
  rw [exec, execLdB, hw]

theorem exec_storeRegs_outside {x : Nibble} {s : State} (h : ¬ BlockExists s (x.toNat + 1)) :
    exec (.storeRegs x) s = raised s (.memoryBounds s.i) := by
  have hw := State.writeBlock_of_not_blockExists (bs := s.regsUpTo x) (by rwa [State.length_regsUpTo])
  rw [exec, execStoreRegs, hw]

theorem exec_loadRegs_outside {x : Nibble} {s : State} (h : ¬ BlockExists s (x.toNat + 1)) :
    exec (.loadRegs x) s = raised s (.memoryBounds s.i) := by
  rw [exec, execLoadRegs, regCount, State.readBlock_of_not_blockExists h]

theorem exec_drw_outside {x y n : Nibble} {s : State} (h : ¬ BlockExists s n.toNat) :
    exec (.drw x y n) s = raised s (.memoryBounds s.i) := by
  rw [exec, execDrw, State.readBlock_of_not_blockExists h]

/-- An instruction that only raises `r` answers that report and changes nothing else (R85). -/
theorem reports_of_eq_raised {o : Host.Outcome State Fault Refusal} {s : State} {r : Report} (h : o = raised s r) :
    ∃ t, o = .next t ∧ t.out.report = some r ∧ SameBut [.outputs] s t :=
  ⟨s.raise r, h, rfl, SameBut.raise s r⟩

/-- Settles O20: outside memory each of the four block instructions only raises the report. -/
theorem blockBoundsReport : Obligations.BlockBoundsReport := by
  intro x y n s
  exact ⟨fun h => reports_of_eq_raised (exec_ldB_outside h),
    fun h => reports_of_eq_raised (exec_storeRegs_outside h),
    fun h => reports_of_eq_raised (exec_loadRegs_outside h),
    fun h => reports_of_eq_raised (exec_drw_outside h)⟩

/-! ## The fetch after a store -/

/-- Memory after LD B, Vx (R143). -/
theorem exec_ldB_mem {x : Nibble} {s t : State} (hb : BlockExists s 3) (h : exec (.ldB x) s = .next t) :
    t.mem = s.mem.writeBytes s.i.toNat (decimalDigits (s.reg x)) := by
  have hw := State.writeBlock_of_blockExists (bs := decimalDigits (s.reg x)) hb
  rw [exec, execLdB, hw] at h
  cases h
  rfl

/-- Memory after LD [I], Vx (R144). -/
theorem exec_storeRegs_mem {x : Nibble} {s t : State} (hb : BlockExists s (x.toNat + 1))
    (h : exec (.storeRegs x) s = .next t) : t.mem = s.mem.writeBytes s.i.toNat (s.regsUpTo x) := by
  have hw := State.writeBlock_of_blockExists (bs := s.regsUpTo x) (by rwa [State.length_regsUpTo])
  rw [exec, execStoreRegs, hw] at h
  cases h
  rfl

/-- Memory after a `loadProgram` whose payload fits (R196). -/
theorem hostOp_loadProgram_mem {bytes : List Byte} {s t : State} (hl : bytes.length ≤ 3584)
    (h : hostOp (.loadProgram bytes) s = .next t) : t.mem = s.mem.writeBytes 0x200 bytes := by
  rw [hostOp, hostLoadProgram, if_neg (by rw [Config.progCap]; omega)] at h
  cases h
  rfl

/-- The three digits as numbers (R143): each fits in its byte. -/
theorem decimalDigits_eq (b : Byte) : ∃ h u v : Byte, h.toNat = b.toNat / 100 ∧ u.toNat = b.toNat / 10 % 10 ∧
    v.toNat = b.toNat % 10 ∧ decimalDigits b = [h, u, v] := by
  refine ⟨_, _, _, ?_, ?_, ?_, rfl⟩ <;> rw [BitVec.toNat_ofNat] <;> omega

/-- The fetch reads through a block write (R52), wherever the two bytes at `PC` lie. -/
theorem fetchReadsStored_of_mem {s t : State} {base : Nat} {bytes : List Byte} (hpc : t.pc.toNat ≤ 0xFFE)
    (hm : t.mem = s.mem.writeBytes base bytes) : FetchReadsStored s base bytes t := by
  have hbyte (a : Nat) : t.byte a = storedOver s base bytes a := by
    rw [State.byte, hm, State.byte_writeBytes]
  rw [FetchReadsStored, fetch_eq_some hpc, hbyte, hbyte]

/-- Settles O42: each of the three writers leaves its bytes in memory, and the fetch reads memory. -/
theorem fetchSeesStores : Obligations.FetchSeesStores := by
  intro s t hpc
  refine ⟨fun x hb h => ?_, fun x hb h => ?_, fun bytes hl h => ?_⟩
  · rw [← State.regsUpTo_eq_map]
    exact fetchReadsStored_of_mem hpc (exec_storeRegs_mem hb h)
  · obtain ⟨d, u, v, hd, hu, hv, digits⟩ := decimalDigits_eq (s.reg x)
    exact ⟨d, u, v, hd, hu, hv, fetchReadsStored_of_mem hpc (digits ▸ exec_ldB_mem hb h)⟩
  · exact fetchReadsStored_of_mem hpc (hostOp_loadProgram_mem hl h)

end Sys2Proof.Machine
end

