-- ==== Sys2Proof/Proofs/Encoding.lean ====
section
/-! The decoder and the encoder against each other and against the list of invalid words (30_encoding.md R61 to R67).

Beside the two fixed words, the words of the map come in five forms: a group nibble followed by `nnn`, by `x` and `kk`,
by `x`, `y` and `n`, by `x`, `y` and a fixed low nibble, or by `x` and a fixed low byte. For each form it is said once,
as arithmetic on the word, when a word hits a row of the form and when it is put together from its own fields. -/

namespace Sys2Proof

/-! ## Hitting a row, for each mask with free bits -/

theorem Row.hits_iff {mask p w : Word} {make : Word → Instr} :
    (⟨mask, p, make⟩ : Row).hits w = true ↔ (w &&& mask).toNat = p.toNat := by
  rw [Row.hits, beq_iff_eq, BitVec.toNat_inj]

theorem Row.hits_F000 {g : Nibble} {make : Word → Instr} {w : Word} :
    (⟨0xF000#16, g ++ 0#12, make⟩ : Row).hits w = true ↔ wordGroup w = g.toNat := by
  rw [Row.hits_iff, toNat_and_F000, toNat_concat, wordGroup, BitVec.toNat_ofNat]
  omega

theorem Row.hits_F00F {g n : Nibble} {make : Word → Instr} {w : Word} :
    (⟨0xF00F#16, g ++ 0#8 ++ n, make⟩ : Row).hits w = true ↔ wordGroup w = g.toNat ∧ wordLow w = n.toNat := by
  rw [Row.hits_iff, toNat_and_F00F, toNat_concat, toNat_concat, wordGroup, wordLow, BitVec.toNat_ofNat]
  omega

theorem Row.hits_F0FF {g : Nibble} {b : Byte} {make : Word → Instr} {w : Word} :
    (⟨0xF0FF#16, g ++ 0#4 ++ b, make⟩ : Row).hits w = true ↔ wordGroup w = g.toNat ∧ wordByte w = b.toNat := by
  rw [Row.hits_iff, toNat_and_F0FF, toNat_concat, toNat_concat, wordGroup, wordByte, BitVec.toNat_ofNat]
  omega

/-! ## A word put together from its own fields -/

theorem concat_fieldNnn_iff {g : Nibble} {w : Word} : g ++ fieldNnn w = w ↔ wordGroup w = g.toNat := by
  rw [← BitVec.toNat_inj, toNat_concat, fieldNnn_toNat, wordGroup]
  omega

theorem concat_fieldX_fieldKk_iff {g : Nibble} {w : Word} :
    g ++ fieldX w ++ fieldKk w = w ↔ wordGroup w = g.toNat := by
  rw [← BitVec.toNat_inj, toNat_concat, toNat_concat, fieldX_toNat, fieldKk_toNat, wordGroup]
  omega

theorem concat_fieldX_fieldY_fieldN_iff {g : Nibble} {w : Word} :
    g ++ fieldX w ++ fieldY w ++ fieldN w = w ↔ wordGroup w = g.toNat := by
  rw [← BitVec.toNat_inj, toNat_concat, toNat_concat, toNat_concat, fieldX_toNat, fieldY_toNat, fieldN_toNat,
    wordGroup]
  omega

theorem concat_fieldX_fieldY_iff {g n : Nibble} {w : Word} :
    g ++ fieldX w ++ fieldY w ++ n = w ↔ wordGroup w = g.toNat ∧ wordLow w = n.toNat := by
  rw [← BitVec.toNat_inj, toNat_concat, toNat_concat, toNat_concat, fieldX_toNat, fieldY_toNat, wordGroup, wordLow]
  omega

theorem concat_fieldX_iff {g : Nibble} {b : Byte} {w : Word} :
    g ++ fieldX w ++ b = w ↔ wordGroup w = g.toNat ∧ wordByte w = b.toNat := by
  rw [← BitVec.toNat_inj, toNat_concat, toNat_concat, fieldX_toNat, wordGroup, wordByte]
  omega

/-! ## The fields of a word put together from operands (R61) -/

@[simp] theorem fieldNnn_concat (g : Nibble) (nnn : Addr) : fieldNnn (g ++ nnn) = nnn := by
  rw [← BitVec.toNat_inj, fieldNnn_toNat, toNat_concat]
  omega

@[simp] theorem fieldX_concat_kk (g x : Nibble) (kk : Byte) : fieldX (g ++ x ++ kk) = x := by
  rw [← BitVec.toNat_inj, fieldX_toNat, toNat_concat, toNat_concat]
  omega

@[simp] theorem fieldKk_concat (g x : Nibble) (kk : Byte) : fieldKk (g ++ x ++ kk) = kk := by
  rw [← BitVec.toNat_inj, fieldKk_toNat, toNat_concat, toNat_concat]
  omega

@[simp] theorem fieldX_concat (g x y n : Nibble) : fieldX (g ++ x ++ y ++ n) = x := by
  rw [← BitVec.toNat_inj, fieldX_toNat, toNat_concat, toNat_concat, toNat_concat]
  omega

@[simp] theorem fieldY_concat (g x y n : Nibble) : fieldY (g ++ x ++ y ++ n) = y := by
  rw [← BitVec.toNat_inj, fieldY_toNat, toNat_concat, toNat_concat, toNat_concat]
  omega

@[simp] theorem fieldN_concat (g x y n : Nibble) : fieldN (g ++ x ++ y ++ n) = n := by
  rw [← BitVec.toNat_inj, fieldN_toNat, toNat_concat, toNat_concat, toNat_concat]
  omega

/-! ## Decoding the word of each form -/

section Forms
variable {g : Nibble}

theorem decode_concat_nnn (make : Addr → Instr) (nnn : Addr)
    (hr : ⟨0xF000, g ++ 0#12, fun w => make (fieldNnn w)⟩ ∈ rows := by simp [rows]) :
    decode (g ++ nnn) = .instr (make nnn) := by
  have hg : wordGroup (g ++ nnn) = g.toNat := concat_fieldNnn_iff.1 (by simp)
  simpa using decode_of_hits _ _ hr (Row.hits_F000.2 hg)

theorem decode_concat_x_kk (make : Nibble → Byte → Instr) (x : Nibble) (kk : Byte)
    (hr : ⟨0xF000, g ++ 0#12, fun w => make (fieldX w) (fieldKk w)⟩ ∈ rows := by simp [rows]) :
    decode (g ++ x ++ kk) = .instr (make x kk) := by
  have hg : wordGroup (g ++ x ++ kk) = g.toNat := concat_fieldX_fieldKk_iff.1 (by simp)
  simpa using decode_of_hits _ _ hr (Row.hits_F000.2 hg)

theorem decode_concat_x_y_n (make : Nibble → Nibble → Nibble → Instr) (x y n : Nibble)
    (hr : ⟨0xF000, g ++ 0#12, fun w => make (fieldX w) (fieldY w) (fieldN w)⟩ ∈ rows := by simp [rows]) :
    decode (g ++ x ++ y ++ n) = .instr (make x y n) := by
  have hg : wordGroup (g ++ x ++ y ++ n) = g.toNat := concat_fieldX_fieldY_fieldN_iff.1 (by simp)
  simpa using decode_of_hits _ _ hr (Row.hits_F000.2 hg)

theorem decode_concat_x_y {n : Nibble} (make : Nibble → Nibble → Instr) (x y : Nibble)
    (hr : ⟨0xF00F, g ++ 0#8 ++ n, fun w => make (fieldX w) (fieldY w)⟩ ∈ rows := by simp [rows]) :
    decode (g ++ x ++ y ++ n) = .instr (make x y) := by
  have hgn : wordGroup (g ++ x ++ y ++ n) = g.toNat ∧ wordLow (g ++ x ++ y ++ n) = n.toNat :=
    concat_fieldX_fieldY_iff.1 (by simp)
  simpa using decode_of_hits _ _ hr (Row.hits_F00F.2 hgn)

theorem decode_concat_x {b : Byte} (make : Nibble → Instr) (x : Nibble)
    (hr : ⟨0xF0FF, g ++ 0#4 ++ b, fun w => make (fieldX w)⟩ ∈ rows := by simp [rows]) :
    decode (g ++ x ++ b) = .instr (make x) := by
  have hgb : wordGroup (g ++ x ++ b) = g.toNat ∧ wordByte (g ++ x ++ b) = b.toNat :=
    concat_fieldX_iff.1 (by simp)
  simpa using decode_of_hits _ _ hr (Row.hits_F0FF.2 hgb)

end Forms

/-- Settles O1: the word of an instruction hits the instruction's own row, and the fields of the word are the
operands; by the form of the word. -/
theorem decodeEncodeRoundTrip : Obligations.DecodeEncodeRoundTrip := by
  intro i
  cases i with
  | cls => decide
  | ret => decide
  | jp nnn => exact decode_concat_nnn .jp nnn
  | call nnn => exact decode_concat_nnn .call nnn
  | seImm x kk => exact decode_concat_x_kk .seImm x kk
  | sneImm x kk => exact decode_concat_x_kk .sneImm x kk
  | seReg x y => exact decode_concat_x_y .seReg x y
  | ldImm x kk => exact decode_concat_x_kk .ldImm x kk
  | addImm x kk => exact decode_concat_x_kk .addImm x kk
  | ldReg x y => exact decode_concat_x_y .ldReg x y
  | orReg x y => exact decode_concat_x_y .orReg x y
  | andReg x y => exact decode_concat_x_y .andReg x y
  | xorReg x y => exact decode_concat_x_y .xorReg x y
  | addReg x y => exact decode_concat_x_y .addReg x y
  | sub x y => exact decode_concat_x_y .sub x y
  | shr x y => exact decode_concat_x_y .shr x y
  | subn x y => exact decode_concat_x_y .subn x y
  | shl x y => exact decode_concat_x_y .shl x y
  | sneReg x y => exact decode_concat_x_y .sneReg x y
  | ldI nnn => exact decode_concat_nnn .ldI nnn
  | jpV0 nnn => exact decode_concat_nnn .jpV0 nnn
  | rnd x kk => exact decode_concat_x_kk .rnd x kk
  | drw x y n => exact decode_concat_x_y_n .drw x y n
  | skp x => exact decode_concat_x .skp x
  | sknp x => exact decode_concat_x .sknp x
  | ldVxDt x => exact decode_concat_x .ldVxDt x
  | ldVxK x => exact decode_concat_x .ldVxK x
  | ldDtVx x => exact decode_concat_x .ldDtVx x
  | ldStVx x => exact decode_concat_x .ldStVx x
  | addI x => exact decode_concat_x .addI x
  | ldF x => exact decode_concat_x .ldF x
  | ldB x => exact decode_concat_x .ldB x
  | storeRegs x => exact decode_concat_x .storeRegs x
  | loadRegs x => exact decode_concat_x .loadRegs x

/-! ## Every well-formed word is an instruction's word (R66) -/

section Groups
variable {w : Word}

theorem exists_encode_of_validGroup0 (h : validGroup0 w = true) : ∃ i, encode i = w := by
  rcases (Bool.or_eq_true _ _).mp h with h | h
  · exact ⟨.cls, (beq_iff_eq.1 h).symm⟩
  · exact ⟨.ret, (beq_iff_eq.1 h).symm⟩

theorem exists_encode_of_validGroup8 (hg : wordGroup w = 0x8) (h : validGroup8 w = true) : ∃ i, encode i = w := by
  have lt : wordLow w < 16 := Nat.mod_lt _ (by decide)
  have low : wordLow w = 0x0 ∨ wordLow w = 0x1 ∨ wordLow w = 0x2 ∨ wordLow w = 0x3 ∨ wordLow w = 0x4 ∨
      wordLow w = 0x5 ∨ wordLow w = 0x6 ∨ wordLow w = 0x7 ∨ wordLow w = 0xE := by
    have notInvalid : ¬ wordLow w ∈ [0x8, 0x9, 0xA, 0xB, 0xC, 0xD, 0xF] := by simpa [validGroup8] using h
    simp only [List.mem_cons, List.not_mem_nil] at notInvalid
    omega
  rcases low with hn | hn | hn | hn | hn | hn | hn | hn | hn
  · exact ⟨.ldReg _ _, concat_fieldX_fieldY_iff.2 ⟨hg, hn⟩⟩
  · exact ⟨.orReg _ _, concat_fieldX_fieldY_iff.2 ⟨hg, hn⟩⟩
  · exact ⟨.andReg _ _, concat_fieldX_fieldY_iff.2 ⟨hg, hn⟩⟩
  · exact ⟨.xorReg _ _, concat_fieldX_fieldY_iff.2 ⟨hg, hn⟩⟩
  · exact ⟨.addReg _ _, concat_fieldX_fieldY_iff.2 ⟨hg, hn⟩⟩
  · exact ⟨.sub _ _, concat_fieldX_fieldY_iff.2 ⟨hg, hn⟩⟩
  · exact ⟨.shr _ _, concat_fieldX_fieldY_iff.2 ⟨hg, hn⟩⟩
  · exact ⟨.subn _ _, concat_fieldX_fieldY_iff.2 ⟨hg, hn⟩⟩
  · exact ⟨.shl _ _, concat_fieldX_fieldY_iff.2 ⟨hg, hn⟩⟩

theorem exists_encode_of_validGroupE (hg : wordGroup w = 0xE) (h : validGroupE w = true) : ∃ i, encode i = w := by
  have byte : wordByte w = 0x9E ∨ wordByte w = 0xA1 := by simpa [validGroupE] using h
  rcases byte with hb | hb
  · exact ⟨.skp _, concat_fieldX_iff.2 ⟨hg, hb⟩⟩
  · exact ⟨.sknp _, concat_fieldX_iff.2 ⟨hg, hb⟩⟩

theorem exists_encode_of_validGroupF (hg : wordGroup w = 0xF) (h : validGroupF w = true) : ∃ i, encode i = w := by
  have byte : wordByte w = 0x07 ∨ wordByte w = 0x0A ∨ wordByte w = 0x15 ∨ wordByte w = 0x18 ∨ wordByte w = 0x1E ∨
      wordByte w = 0x29 ∨ wordByte w = 0x33 ∨ wordByte w = 0x55 ∨ wordByte w = 0x65 := by
    simpa [validGroupF] using h
  rcases byte with hb | hb | hb | hb | hb | hb | hb | hb | hb
  · exact ⟨.ldVxDt _, concat_fieldX_iff.2 ⟨hg, hb⟩⟩
  · exact ⟨.ldVxK _, concat_fieldX_iff.2 ⟨hg, hb⟩⟩
  · exact ⟨.ldDtVx _, concat_fieldX_iff.2 ⟨hg, hb⟩⟩
  · exact ⟨.ldStVx _, concat_fieldX_iff.2 ⟨hg, hb⟩⟩
  · exact ⟨.addI _, concat_fieldX_iff.2 ⟨hg, hb⟩⟩
  · exact ⟨.ldF _, concat_fieldX_iff.2 ⟨hg, hb⟩⟩
  · exact ⟨.ldB _, concat_fieldX_iff.2 ⟨hg, hb⟩⟩
  · exact ⟨.storeRegs _, concat_fieldX_iff.2 ⟨hg, hb⟩⟩
  · exact ⟨.loadRegs _, concat_fieldX_iff.2 ⟨hg, hb⟩⟩

end Groups

theorem exists_encode_of_validWord {w : Word} (h : validWord w = true) : ∃ i, encode i = w := by
  have lt : wordGroup w < 16 := by
    rw [wordGroup]
    omega
  rw [validWord] at h
  interval_cases hg : wordGroup w
  · exact exists_encode_of_validGroup0 h
  · exact ⟨.jp _, concat_fieldNnn_iff.2 hg⟩
  · exact ⟨.call _, concat_fieldNnn_iff.2 hg⟩
  · exact ⟨.seImm _ _, concat_fieldX_fieldKk_iff.2 hg⟩
  · exact ⟨.sneImm _ _, concat_fieldX_fieldKk_iff.2 hg⟩
  · exact ⟨.seReg _ _, concat_fieldX_fieldY_iff.2 ⟨hg, beq_iff_eq.1 h⟩⟩
  · exact ⟨.ldImm _ _, concat_fieldX_fieldKk_iff.2 hg⟩
  · exact ⟨.addImm _ _, concat_fieldX_fieldKk_iff.2 hg⟩
  · exact exists_encode_of_validGroup8 hg h
  · exact ⟨.sneReg _ _, concat_fieldX_fieldY_iff.2 ⟨hg, beq_iff_eq.1 h⟩⟩
  · exact ⟨.ldI _, concat_fieldNnn_iff.2 hg⟩
  · exact ⟨.jpV0 _, concat_fieldNnn_iff.2 hg⟩
  · exact ⟨.rnd _ _, concat_fieldX_fieldKk_iff.2 hg⟩
  · exact ⟨.drw _ _ _, concat_fieldX_fieldY_fieldN_iff.2 hg⟩
  · exact exists_encode_of_validGroupE hg h
  · exact exists_encode_of_validGroupF hg h

/-! ## A word that hits a row is well formed -/

/-- The bits that decide whether a word is well formed, by its group: those that R66 speaks of. -/
def validityMask (w : Word) : Word :=
  match wordGroup w with
  | 0x0 => 0xFFFF#16
  | 0x5 | 0x8 | 0x9 => 0xF00F#16
  | 0xE | 0xF => 0xF0FF#16
  | _ => 0xF000#16

/-- Each row of R64 fixes just the bits that R66 looks at, and fixes them to a well-formed word. -/
theorem rows_mask : ∀ r ∈ rows, r.mask = validityMask r.pattern ∧ validWord r.pattern = true := by decide

theorem wordGroup_eq_of_and_F000 {v w : Word} (h : w &&& 0xF000#16 = v) : wordGroup w = wordGroup v := by
  rw [← h, wordGroup, wordGroup, toNat_and_F000]
  omega

theorem wordGroup_wordLow_eq_of_and_F00F {v w : Word} (h : w &&& 0xF00F#16 = v) :
    wordGroup w = wordGroup v ∧ wordLow w = wordLow v := by
  rw [← h, wordGroup, wordGroup, wordLow, wordLow, toNat_and_F00F]
  omega

theorem wordGroup_wordByte_eq_of_and_F0FF {v w : Word} (h : w &&& 0xF0FF#16 = v) :
    wordGroup w = wordGroup v ∧ wordByte w = wordByte v := by
  rw [← h, wordGroup, wordGroup, wordByte, wordByte, toNat_and_F0FF]
  omega

theorem validWord_eq_of_and_validityMask {v w : Word} (h : w &&& validityMask v = v) : validWord w = validWord v := by
  unfold validityMask at h
  split at h
  next =>
    have hw : w = v := BitVec.and_allOnes.symm.trans h
    rw [hw]
  next hv =>
    obtain ⟨hg, hl⟩ := wordGroup_wordLow_eq_of_and_F00F h
    simp only [validWord, validGroup59, hg, hl, hv]
  next hv =>
    obtain ⟨hg, hl⟩ := wordGroup_wordLow_eq_of_and_F00F h
    simp only [validWord, validGroup8, hg, hl, hv]
  next hv =>
    obtain ⟨hg, hl⟩ := wordGroup_wordLow_eq_of_and_F00F h
    simp only [validWord, validGroup59, hg, hl, hv]
  next hv =>
    obtain ⟨hg, hb⟩ := wordGroup_wordByte_eq_of_and_F0FF h
    simp only [validWord, validGroupE, hg, hb, hv]
  next hv =>
    obtain ⟨hg, hb⟩ := wordGroup_wordByte_eq_of_and_F0FF h
    simp only [validWord, validGroupF, hg, hb, hv]
  next =>
    have hg : wordGroup w = wordGroup v := wordGroup_eq_of_and_F000 h
    simp only [validWord, *]

theorem validWord_of_decode {w : Word} {i : Instr} (h : decode w = .instr i) : validWord w = true := by
  obtain ⟨r, hr, hit, -⟩ := hits_of_decode w i h
  obtain ⟨mask, valid⟩ := rows_mask r hr
  have masked : w &&& validityMask r.pattern = r.pattern := mask ▸ beq_iff_eq.1 hit
  exact (validWord_eq_of_and_validityMask masked).trans valid

theorem decode_eq_instr_or_invalidOpcode (w : Word) : (∃ i, decode w = .instr i) ∨ decode w = .invalidOpcode w := by
  unfold decode
  split
  · exact Or.inl ⟨_, rfl⟩
  · exact Or.inr rfl

/-- Settles O2: `w` is well formed, so it is the word of an instruction, and by O1 of the one it decodes to. -/
theorem encodeDecodeRoundTrip : Obligations.EncodeDecodeRoundTrip := by
  intro w i h
  obtain ⟨j, rfl⟩ := exists_encode_of_validWord (validWord_of_decode h)
  rw [decodeEncodeRoundTrip j, Decoded.instr.injEq] at h
  rw [h]

/-- Settles O3: a well-formed word is the word of an instruction, and a word that decodes is well formed. -/
theorem decoderRefusesInvalidWords : Obligations.DecoderRefusesInvalidWords := by
  intro w
  constructor
  · intro invalid
    rcases decode_eq_instr_or_invalidOpcode w with ⟨i, hi⟩ | hw
    · exact absurd (validWord_of_decode hi) (by simp [invalid])
    · exact hw
  · intro valid
    obtain ⟨i, rfl⟩ := exists_encode_of_validWord valid
    exact ⟨i, decodeEncodeRoundTrip i⟩

/-- Settles O4: the seven words are their instructions' words, so O1 decodes them; 0x0000 hits no row. -/
theorem sampleWordsDecode : Obligations.SampleWordsDecode :=
  ⟨decodeEncodeRoundTrip .cls, decodeEncodeRoundTrip (.call 0xABC), decodeEncodeRoundTrip (.seImm 0xA 0x42),
    decodeEncodeRoundTrip (.sub 0xA 0xB), decodeEncodeRoundTrip (.drw 0xA 0xB 0x5),
    decodeEncodeRoundTrip (.storeRegs 0x2), decodeEncodeRoundTrip (.ldVxK 0x2), decode_of_no_hit _ (by decide)⟩

end Sys2Proof
end

