-- ==== Sys2Proof/Proofs/StepCycle.lean ====
section
/-! The step cycle (40_step_cycle.md R80 to R91) and the driver's inputs: what `step` answers on each of its paths, that
it always answers, and what holds after every step. -/

namespace Sys2Proof.Machine

/-! ## The parts of a step -/

/-- The start of an executed step closes the gate and takes back the report (R82). -/
theorem beginStep_frame (s : State) : SameBut [.gate, .outputs] s (beginStep s) := by
  constructor <;> simp

/-- The end of an executed step runs the timer phase, hands out the result and uses up a random byte (R87, R89). -/
theorem endStep_frame (w : Option Word) (s : State) : SameBut [.dt, .st, .draws, .outputs] s (endStep w s) := by
  constructor <;> simp

theorem gatedStep_frame (s : State) : SameBut [.outputs] s (gatedStep s) := by
  constructor <;> simp

/-- An executed step whose instruction phase only reports: the gate, the timer phase, the outputs (R85). -/
theorem reportStep_frame (w : Option Word) (r : Report) (s : State) :
    SameBut [.gate, .dt, .st, .draws, .outputs] s (endStep w ((beginStep s).raise r)) := by
  constructor <;> simp

/-- An executed step hands out the report of its instruction phase and a beep by its last `ST` (R88, R89). -/
theorem endStep_result (w : Option Word) (s : State) :
    (endStep w s).out.result = some (.executed w s.out.report ((endStep w s).st != 0)) := rfl

/-- The fetch does not look at the gate or the outputs. -/
theorem fetch_beginStep (s : State) : fetch (beginStep s) = fetch s := rfl

/-! ## What a step answers, path by path (R82) -/

section Paths
variable {s u : State} (hu : driverTurn s = .next u)
include hu

theorem step_of_closed (hg : u.gateOpen = false) : step s = .next (gatedStep u) := by
  rw [step, cycle, hu]
  simp [machineStep, hg]

theorem step_of_fetch_none (hg : u.gateOpen = true) (hf : fetch u = none) :
    step s = .next (endStep none ((beginStep u).raise .fetchBounds)) := by
  rw [step_of_open hu hg, executedStep, fetch_beginStep, hf]
  rfl

theorem step_of_invalidOpcode {w v : Word} (hg : u.gateOpen = true) (hf : fetch u = some w)
    (hd : decode w = .invalidOpcode v) :
    step s = .next (endStep (some w) ((beginStep u).raise (.invalidOpcode v))) := by
  rw [step_of_open hu hg, executedStep, fetch_beginStep, hf]
  simp only [hd]
  rfl

theorem step_of_instr {w : Word} {i : Instr} (hg : u.gateOpen = true) (hf : fetch u = some w)
    (hd : decode w = .instr i) : step s = finish (some w) (exec i (beginStep u)) := by
  rw [step_of_open hu hg, executedStep, fetch_beginStep, hf]
  simp only [hd]

end Paths

/-- The instruction phase from `u` can leave `z`: it only raised a report, or it ran the instruction fetched. -/
def PhaseLeaves (u z : State) : Prop :=
  (∃ r, z = (beginStep u).raise r) ∨
    ∃ w i, fetch u = some w ∧ decode w = .instr i ∧ exec i (beginStep u) = .next z

/-- A step is gated, or it ends with the timer phase whatever its instruction phase did (R82, R84, R87). -/
theorem step_gated_or_ended {s t : State} (h : step s = .next t) : ∃ u, driverTurn s = .next u ∧
    ((u.gateOpen = false ∧ t = gatedStep u) ∨
      (u.gateOpen = true ∧ ∃ w z, PhaseLeaves u z ∧ t = endStep w z)) := by
  obtain ⟨u, hu, hc⟩ := step_cases h
  refine ⟨u, hu, hc.imp_right fun ⟨hg, hc⟩ => ⟨hg, ?_⟩⟩
  rcases hc with ⟨-, ht⟩ | ⟨w, hf, ⟨v, -, ht⟩ | ⟨i, z, hd, hx, ht⟩⟩
  · exact ⟨none, _, Or.inl ⟨_, rfl⟩, ht⟩
  · exact ⟨some w, _, Or.inl ⟨_, rfl⟩, ht⟩
  · exact ⟨some w, z, Or.inr ⟨w, i, hf, hd, hx⟩, ht⟩

/-! ## Every instruction and every step has a next state -/

/-- No meaning refuses: an instruction with a report or a wait takes one of two branches, and each has a next state. -/
theorem exec_exists_next (i : Instr) (s : State) : ∃ t, exec i s = .next t := by
  cases i <;> simp only [exec]
  case ret => unfold execRet; split <;> exact ⟨_, rfl⟩
  case call => unfold execCall; split <;> exact ⟨_, rfl⟩
  case skp => unfold execSkp skipOnKey; split <;> exact ⟨_, rfl⟩
  case sknp => unfold execSknp skipOnKey; split <;> exact ⟨_, rfl⟩
  case ldVxK => unfold execLdVxK; split <;> exact ⟨_, rfl⟩
  case drw => unfold execDrw; split <;> exact ⟨_, rfl⟩
  case ldB => unfold execLdB; split <;> exact ⟨_, rfl⟩
  case storeRegs => unfold execStoreRegs; split <;> exact ⟨_, rfl⟩
  case loadRegs => unfold execLoadRegs; split <;> exact ⟨_, rfl⟩
  all_goals exact ⟨_, rfl⟩

/-- Once the driver's turn is over the step has a next state, on each of its paths (R86, R177). -/
theorem step_exists_next {s u : State} (hu : driverTurn s = .next u) : ∃ t, step s = .next t := by
  cases hg : u.gateOpen with
  | false => exact ⟨_, step_of_closed hu hg⟩
  | true =>
    cases hf : fetch u with
    | none => exact ⟨_, step_of_fetch_none hu hg hf⟩
    | some w =>
      cases hd : decode w with
      | invalidOpcode v => exact ⟨_, step_of_invalidOpcode hu hg hf hd⟩
      | instr i =>
        obtain ⟨z, hz⟩ := exec_exists_next i (beginStep u)
        exact ⟨endStep (some w) z, by rw [step_of_instr hu hg hf hd, hz, finish]⟩

/-- Settles O7: every meaning answers a next state, and with it every path of the step. -/
theorem nothingStopsTheMachine : Obligations.NothingStopsTheMachine :=
  ⟨exec_exists_next, fun _ _ hu => step_exists_next hu⟩

/-! ## The step that runs an instruction -/

/-- Settles O6: the step is the instruction's next state and `endStep`. -/
theorem stepRunsDecodedInstruction : Obligations.StepRunsDecodedInstruction := by
  intro s u w i hu hg hf hd
  refine ⟨⟨rfl, rfl, beginStep_frame u⟩, fun t ht => ⟨endStep (some w) t, ?_, countDown_toNat t.dt,
    countDown_toNat t.st, rfl, endStep_result _ _, endStep_frame (some w) t⟩⟩
  rw [step_of_instr hu hg hf hd, ht, finish]

/-! ## The steps that run none -/

/-- Settles O9: the step only writes its result. -/
theorem gatedStepChangesNothing : Obligations.GatedStepChangesNothing := by
  intro s u hu hg
  exact ⟨gatedStep u, step_of_closed hu hg, rfl, rfl, rfl, rfl, gatedStep_frame u⟩

/-- Settles O10: nothing is fetched above 0xFFE, so the step only reports and ends. -/
theorem fetchBoundsStep : Obligations.FetchBoundsStep := by
  intro s u hu hg hpc
  exact ⟨_, step_of_fetch_none hu hg (fetch_eq_none hpc), endStep_result _ _, rfl,
    countDown_toNat u.dt, countDown_toNat u.st, reportStep_frame none _ u⟩

/-- Settles O11: the decoder hands the invalid word back (O3), so the step only reports it and ends. -/
theorem invalidOpcodeStep : Obligations.InvalidOpcodeStep := by
  intro s u w hu hg hf invalid
  have hd : decode w = .invalidOpcode w := (decoderRefusesInvalidWords w).1 invalid
  exact ⟨_, step_of_invalidOpcode hu hg hf hd, endStep_result _ _, rfl, by simp,
    countDown_toNat u.dt, countDown_toNat u.st, reportStep_frame (some w) _ u⟩

/-! ## The timers -/

/-- An instruction that sets no timer names none among what it writes (R162, R163). -/
theorem timers_notMem_writes {i : Instr} (s : State) (hi : setsTimer i = false) :
    Part.dt ∉ writes s i ∧ Part.st ∉ writes s i := by
  cases i
  case ldDtVx => cases hi
  case ldStVx => cases hi
  all_goals simp [writes, byteParts, regPartsUpTo]

/-- The instruction phase leaves the timers unless the instruction sets one. -/
theorem PhaseLeaves.timers {u z : State} (h : PhaseLeaves u z)
    (hset : ∀ w i, fetch u = some w → decode w = .instr i → setsTimer i = false) :
    z.dt = u.dt ∧ z.st = u.st := by
  rcases h with ⟨r, rfl⟩ | ⟨w, i, hf, hd, hx⟩
  · exact ⟨rfl, rfl⟩
  · have frame := exec_frame i (beginStep u) z hx
    obtain ⟨hdt, hst⟩ := timers_notMem_writes (beginStep u) (hset w i hf hd)
    exact ⟨frame.dt hdt, frame.st hst⟩

/-- Settles O12: the instruction phase leaves the timers, and the end of the step counts them down. -/
theorem timersCountDownOnExecutedSteps : Obligations.TimersCountDownOnExecutedSteps := by
  intro s u t hu hg h hset
  obtain ⟨u', hu', hc⟩ := step_gated_or_ended h
  obtain rfl : u = u' := by simpa [hu] using hu'
  rcases hc with ⟨closed, -⟩ | ⟨-, w, z, hz, rfl⟩
  · simp [hg] at closed
  · obtain ⟨hdt, hst⟩ := hz.timers hset
    rw [← hdt, ← hst]
    exact ⟨countDown_toNat z.dt, countDown_toNat z.st⟩

/-- Settles O14: a gated step answers no beep; every other step takes the beep from its last `ST`. -/
theorem beepIffSoundTimerRuns : Obligations.BeepIffSoundTimerRuns := by
  intro s t h w r b hr
  obtain ⟨u, -, ⟨-, rfl⟩ | ⟨-, w', z, -, rfl⟩⟩ := step_gated_or_ended h
  · cases hr
  · rw [endStep_result] at hr
    obtain ⟨-, -, rfl⟩ := StepResult.executed.inj (Option.some.inj hr)
    rw [bne_iff_ne, ne_eq, ne_eq, ← BitVec.toNat_inj]
    rfl

/-! ## The gate -/

/-- The gate that the start of the step closed stays closed: no instruction opens it (R31). -/
theorem PhaseLeaves.gateOpen {u z : State} (h : PhaseLeaves u z) : z.gateOpen = false := by
  rcases h with ⟨r, rfl⟩ | ⟨w, i, -, -, hx⟩
  · rfl
  · obtain ⟨-, gate, -⟩ := instructionsLeaveHostSide i (beginStep u) z hx
    exact gate

/-- Settles O15: a gated step found the gate closed, and an executed one closed it. -/
theorem stepLeavesGateClosed : Obligations.StepLeavesGateClosed := by
  intro s t h
  obtain ⟨u, -, ⟨closed, rfl⟩ | ⟨-, w, z, hz, rfl⟩⟩ := step_gated_or_ended h
  · exact closed
  · exact hz.gateOpen

/-! ## Reports -/

/-- An instruction only raises a report, or it touches no output (R85, R176). -/
theorem exec_raises_or_keeps_out {i : Instr} {s t : State} (h : exec i s = .next t) :
    (∃ r, t = s.raise r) ∨ t.out = s.out := by
  rcases exec_reports i s t h with ⟨ht, -⟩ | ⟨ht, -⟩ | ⟨ht, -⟩ | ⟨x, ht, -⟩ | ho
  · exact Or.inl ⟨_, ht⟩
  · exact Or.inl ⟨_, ht⟩
  · exact Or.inl ⟨_, ht⟩
  · exact Or.inl ⟨_, ht⟩
  · exact Or.inr ho

/-- Settles O17: where no report stood before, an instruction that leaves one has only raised it. -/
theorem reportingInstructionChangesNothing : Obligations.ReportingInstructionChangesNothing := by
  intro i s t quiet h reports
  rcases exec_raises_or_keeps_out h with ⟨r, rfl⟩ | ho
  · exact ⟨rfl, SameBut.raise s r⟩
  · exact absurd (ho ▸ quiet) reports

/-! ## The driver's inputs -/

theorem hostTick_frame (s : State) : SameBut [.gate] s (hostTick s) := by
  constructor <;> simp

theorem setKey_frame (k : Nibble) (b : Bool) (s : State) : SameBut [.key k] s (s.setKey k b) := by
  constructor <;> simp +contextual

theorem hostTakeFramebuffer_frame (s : State) : SameBut [.dirty, .outputs] s (hostTakeFramebuffer s) := by
  constructor <;> simp

theorem hostOp_setKey (k : Nibble) (b : Bool) (s : State) : hostOp (.setKey k.toNat b) s = .next (s.setKey k b) := by
  rw [hostOp, if_pos (by omega), BitVec.ofNat_toNat, BitVec.setWidth_eq]

theorem hostOp_setKey_above {n : Nat} (b : Bool) (s : State) (hn : 15 < n) :
    hostOp (.setKey n b) s = .refused (.setKeyIndex n) := by
  rw [hostOp, if_neg (by omega)]

/-- Settles O59: each move writes the part it is for. -/
theorem driverInputs : Obligations.DriverInputs := by
  intro s
  exact ⟨⟨hostTick s, rfl, rfl, hostTick_frame s⟩,
    fun k b => ⟨s.setKey k b, hostOp_setKey k b s, by simp, setKey_frame k b s⟩,
    fun _ b hn => hostOp_setKey_above b s hn,
    ⟨hostTakeFramebuffer s, rfl, rfl, rfl, hostTakeFramebuffer_frame s⟩⟩

end Sys2Proof.Machine
end

