-- ==== Sys2Proof/Proofs/Flow.lean ====
section
/-! The control transfers (41_flow.md R100 to R104): the two jumps, CALL below the stack limit, RET above it, and the
two together. -/

namespace Sys2Proof.Machine

/-! ## Targets -/

/-- `zext_16` keeps the value of what has at most 16 bits (R6). -/
theorem zext16_toNat {n : Nat} (v : BitVec n) (hn : n ≤ 16) : (zext16 v).toNat = v.toNat :=
  BitVec.toNat_setWidth_of_le hn

/-- The target of JP V0, nnn as a number: at most 0xFFF + 0xFF, so it does not wrap at 16 bits (R103). -/
theorem indexedTarget_toNat (s : State) (nnn : Addr) :
    (indexedTarget s nnn).toNat = nnn.toNat + (s.reg 0).toNat := by
  rw [indexedTarget, BitVec.toNat_add, zext16_toNat nnn (by decide), zext16_toNat (s.reg 0) (by decide)]
  omega

/-! ## What each transfer answers -/

theorem exec_jp (nnn : Addr) (s : State) : exec (.jp nnn) s = .next (s.setPc (zext16 nnn)) := rfl

theorem exec_jpV0 (nnn : Addr) (s : State) : exec (.jpV0 nnn) s = .next (s.setPc (indexedTarget s nnn)) := rfl

/-- CALL with a free slot above `SP` (R102). -/
theorem exec_call_of_sp_ne {nnn : Addr} {s : State} (h : s.sp ≠ 15) :
    exec (.call nnn) s = .next (((s.setSp (s.sp + 1)).setSlot (s.sp + 1) (s.pc + 2)).setPc (zext16 nnn)) := by
  rw [exec, execCall, if_neg h]
  rfl

/-- RET with a call to return from (R101). -/
theorem exec_ret_of_sp_ne {s : State} (h : s.sp ≠ 0) :
    exec .ret s = .next ((s.setPc (s.slot s.sp)).setSp (s.sp - 1)) := by
  rw [exec, execRet, if_neg h]
  rfl

theorem State.setPc_frame (s : State) (w : Word) : SameBut [.pc] s (s.setPc w) := by
  constructor <;> simp

/-! ## The jumps -/

/-- The word of an instruction, however it is written, decodes to the instruction (R64). -/
theorem decode_of_encode_eq {w : Word} {i : Instr} (h : encode i = w) : decode w = .instr i :=
  h ▸ decodeEncodeRoundTrip i

/-- A word in group 1 is JP's word with the low 12 bits as its target (R100). -/
theorem encode_jp_of_and_F000 {w : Word} (h : w &&& 0xF000 = 0x1000) : encode (.jp (fieldNnn w)) = w :=
  concat_fieldNnn_iff.2 (wordGroup_eq_of_and_F000 h)

/-- Settles O22: the word is JP's own word, and the target 0xFFF lies above the last address to fetch from. -/
theorem jumpGoesToTarget : Obligations.JumpGoesToTarget := by
  refine ⟨fun w h => decode_of_encode_eq (encode_jp_of_and_F000 h), fun nnn s => ?_⟩
  have target : (s.setPc (zext16 nnn)).pc.toNat = nnn.toNat := zext16_toNat nnn (by decide)
  refine ⟨_, exec_jp nnn s, target, ?_, s.setPc_frame _⟩
  rintro rfl
  exact fetch_eq_none (by rw [target]; decide)

/-- Settles O23: the sum does not wrap, and its two parts bound it. -/
theorem indexedJumpAddsV0 : Obligations.IndexedJumpAddsV0 := by
  intro nnn s
  have target : (s.setPc (indexedTarget s nnn)).pc.toNat = nnn.toNat + (s.reg 0).toNat := indexedTarget_toNat s nnn
  exact ⟨_, exec_jpV0 nnn s, target, by omega, s.setPc_frame _⟩

/-! ## The stack -/

/-- Settles O24: below the limit the new `SP` does not wrap, so it names the slot that takes `pc + 2`. -/
theorem callPushesReturnAddress : Obligations.CallPushesReturnAddress := by
  intro nnn s hsp
  have below : s.sp ≠ 15 := by bv_omega
  have pushed : (s.sp + 1).toNat = s.sp.toNat + 1 := by bv_omega
  refine ⟨_, exec_call_of_sp_ne below, pushed, by simp, zext16_toNat nnn (by decide), ?_⟩
  constructor <;> simp +contextual

/-- Settles O25: above 0 the lower `SP` does not wrap, and no slot is written. -/
theorem returnPopsReturnAddress : Obligations.ReturnPopsReturnAddress := by
  intro s hsp
  have above : s.sp ≠ 0 := by bv_omega
  have popped : (s.sp - 1).toNat = s.sp.toNat - 1 := by bv_omega
  refine ⟨_, exec_ret_of_sp_ne above, rfl, popped, ?_⟩
  constructor <;> simp

/-- Settles O26: RET pops what CALL pushed, since `u` has kept both `SP` and the slot it indexes (O24, O25). -/
theorem callReturnRoundTrip : Obligations.CallReturnRoundTrip := by
  intro nnn s t u hsp hcall husp huslot
  obtain ⟨t', hcall', pushed, saved, -⟩ := callPushesReturnAddress nnn s hsp
  obtain rfl : t = t' := by simpa [hcall] using hcall'
  have depth : u.sp.toNat = s.sp.toNat + 1 := husp ▸ pushed
  obtain ⟨z, hret, hpc, popped, -⟩ := returnPopsReturnAddress u (by omega)
  refine ⟨z, hret, ?_, BitVec.eq_of_toNat_eq (by omega)⟩
  calc z.pc = u.slot u.sp := hpc
    _ = t.slot t.sp := by rw [husp, huslot]
    _ = s.pc + 2 := saved

end Sys2Proof.Machine
end

