-- ==== Sys2Proof/Proofs/Skip.lean ====
section
/-! The conditional skips (42_skip.md R110 to R115): on an immediate, on two registers, and on the key that `V[x]`
names. Each answers `skipIf` of one condition, so that what a skip does is said once, for any condition. -/

namespace Sys2Proof.Machine

/-! ## What each skip answers -/

theorem exec_seImm (x : Nibble) (kk : Byte) (s : State) :
    exec (.seImm x kk) s = .next (s.skipIf (s.reg x == kk)) := rfl

theorem exec_sneImm (x : Nibble) (kk : Byte) (s : State) :
    exec (.sneImm x kk) s = .next (s.skipIf (s.reg x != kk)) := rfl

theorem exec_seReg (x y : Nibble) (s : State) :
    exec (.seReg x y) s = .next (s.skipIf (s.reg x == s.reg y)) := rfl

theorem exec_sneReg (x y : Nibble) (s : State) :
    exec (.sneReg x y) s = .next (s.skipIf (s.reg x != s.reg y)) := rfl

/-- A skip on a key, where `V[x]` names the key `k` (R114, R115). -/
theorem skipOnKey_of_reg_eq {x k : Nibble} {s : State} (wanted : Bool) (h : (s.reg x).toNat = k.toNat) :
    skipOnKey x wanted s = .next (s.skipIf (s.key k == wanted)) := by
  rw [skipOnKey, keyOperand_eq_some s x k h]
  rfl

theorem exec_skp_of_reg_eq {x k : Nibble} {s : State} (h : (s.reg x).toNat = k.toNat) :
    exec (.skp x) s = .next (s.skipIf (s.key k)) :=
  (skipOnKey_of_reg_eq true h).trans (by rw [beq_true])

theorem exec_sknp_of_reg_eq {x k : Nibble} {s : State} (h : (s.reg x).toNat = k.toNat) :
    exec (.sknp x) s = .next (s.skipIf !(s.key k)) :=
  (skipOnKey_of_reg_eq false h).trans (by rw [beq_false])

/-- An instruction that answers `skipIf` moves `PC` by 4 where the condition holds and else by 2, and changes nothing
beside (42_skip.md). -/
theorem skips_of_exec_eq_skipIf {i : Instr} {s : State} {c : Bool} {p : Prop} [Decidable p]
    (h : exec i s = .next (s.skipIf c)) (hc : c = true ↔ p) :
    ∃ t, exec i s = .next t ∧ t.pc = (if p then s.pc + 4 else s.pc + 2) ∧ SameBut [.pc] s t :=
  ⟨_, h, by simp only [State.skipIf_pc, hc], execSkip_frame rfl⟩

/-! ## Low nibbles other than 0 in the groups 5 and 9 (R66) -/

/-- Both groups have the same rule. -/
theorem validWord_eq_validGroup59 {w : Word} (hg : wordGroup w = 5 ∨ wordGroup w = 9) :
    validWord w = validGroup59 w := by
  rcases hg with hg | hg <;> simp only [validWord, hg]

theorem validGroup59_eq_false {w : Word} (hn : fieldN w ≠ 0) : validGroup59 w = false := by
  rw [ne_eq, ← BitVec.toNat_inj, fieldN_toNat] at hn
  exact beq_eq_false_iff_ne.2 hn

/-- In the groups 5 and 9 a low nibble other than 0 makes an invalid opcode (R66, D3). -/
theorem decode_group59_of_fieldN_ne {w : Word} (h : w &&& 0xF000 = 0x5000 ∨ w &&& 0xF000 = 0x9000)
    (hn : fieldN w ≠ 0) : decode w = .invalidOpcode w := by
  have group : wordGroup w = 5 ∨ wordGroup w = 9 := h.imp wordGroup_eq_of_and_F000 wordGroup_eq_of_and_F000
  have invalid : validWord w = false := (validWord_eq_validGroup59 group).trans (validGroup59_eq_false hn)
  exact (decoderRefusesInvalidWords w).1 invalid

/-! ## The obligations -/

/-- Settles O27: the words are SE's and SNE's own, and bytes are equal just where their numbers are. -/
theorem skipOnImmediate : Obligations.SkipOnImmediate := by
  refine ⟨fun w => ⟨fun h => ⟨fieldX w, fieldKk w, ?_⟩, fun h => ⟨fieldX w, fieldKk w, ?_⟩⟩, fun x kk s => ⟨?_, ?_⟩⟩
  · exact decode_of_encode_eq (concat_fieldX_fieldKk_iff.2 (wordGroup_eq_of_and_F000 h))
  · exact decode_of_encode_eq (concat_fieldX_fieldKk_iff.2 (wordGroup_eq_of_and_F000 h))
  · exact skips_of_exec_eq_skipIf (exec_seImm x kk s) (beq_iff_eq.trans BitVec.toNat_inj.symm)
  · exact skips_of_exec_eq_skipIf (exec_sneImm x kk s) (bne_iff_ne.trans BitVec.toNat_ne_iff_ne.symm)

/-- Settles O28: the words are SE's and SNE's own, or not well formed; the skips are those of O27 with `V[y]`. -/
theorem skipOnRegisters : Obligations.SkipOnRegisters := by
  refine ⟨fun w => ⟨fun h => ?_, fun h => ?_, decode_group59_of_fieldN_ne⟩, fun x y s => ⟨?_, ?_⟩⟩
  · exact decode_of_encode_eq (concat_fieldX_fieldY_iff.2 (wordGroup_wordLow_eq_of_and_F00F h))
  · exact decode_of_encode_eq (concat_fieldX_fieldY_iff.2 (wordGroup_wordLow_eq_of_and_F00F h))
  · exact skips_of_exec_eq_skipIf (exec_seReg x y s) (beq_iff_eq.trans BitVec.toNat_inj.symm)
  · exact skips_of_exec_eq_skipIf (exec_sneReg x y s) (bne_iff_ne.trans BitVec.toNat_ne_iff_ne.symm)

/-- Settles O29: `V[x]` names a key, so neither skip reports, and SKNP skips where the key is not pressed. (The
obligation's own name in lower case is the model's `skipOnKey`.) -/
theorem skipOnKey_rule : Obligations.SkipOnKey := by
  intro x k s hk
  constructor
  · exact skips_of_exec_eq_skipIf (exec_skp_of_reg_eq hk) Iff.rfl
  · have notPressed : (!(s.key k)) = true ↔ ¬ s.key k = true := by rw [Bool.not_eq_true', Bool.not_eq_true]
    simpa only [ite_not] using skips_of_exec_eq_skipIf (exec_sknp_of_reg_eq hk) notPressed

end Sys2Proof.Machine
end

