-- ==== Sys2Proof/Proofs/Alu.lean ====
section
/-! Register load and ALU (43_alu.md R120 to R134). The instructions without a flag write `V[x]` alone; the five with
a flag write it last (R121). What then stands in the registers is said once for each kind, for any result and flag. -/

namespace Sys2Proof.Machine

/-! ## What each instruction answers -/

theorem exec_ldImm (x : Nibble) (kk : Byte) (s : State) :
    exec (.ldImm x kk) s = .next (s.setReg x kk).advance := rfl

theorem exec_addImm (x : Nibble) (kk : Byte) (s : State) :
    exec (.addImm x kk) s = .next (s.setReg x (s.reg x + kk)).advance := rfl

theorem exec_ldReg (x y : Nibble) (s : State) :
    exec (.ldReg x y) s = .next (s.setReg x (s.reg y)).advance := rfl

theorem exec_orReg (x y : Nibble) (s : State) :
    exec (.orReg x y) s = .next (s.setReg x (s.reg x ||| s.reg y)).advance := rfl

theorem exec_andReg (x y : Nibble) (s : State) :
    exec (.andReg x y) s = .next (s.setReg x (s.reg x &&& s.reg y)).advance := rfl

theorem exec_xorReg (x y : Nibble) (s : State) :
    exec (.xorReg x y) s = .next (s.setReg x (s.reg x ^^^ s.reg y)).advance := rfl

theorem exec_rnd (x : Nibble) (kk : Byte) (s : State) :
    exec (.rnd x kk) s = .next (s.setReg x (Config.rnd s.draws &&& kk)).advance := rfl

theorem exec_addReg (x y : Nibble) (s : State) : exec (.addReg x y) s =
    .next (s.setRegFlag x (s.reg x + s.reg y) (carryFlag (s.reg x) (s.reg y))).advance := rfl

theorem exec_sub (x y : Nibble) (s : State) : exec (.sub x y) s =
    .next (s.setRegFlag x (s.reg x - s.reg y) (greaterFlag (s.reg x) (s.reg y))).advance := rfl

theorem exec_subn (x y : Nibble) (s : State) : exec (.subn x y) s =
    .next (s.setRegFlag x (s.reg y - s.reg x) (greaterFlag (s.reg y) (s.reg x))).advance := rfl

theorem exec_shr (x y : Nibble) (s : State) : exec (.shr x y) s =
    .next (s.setRegFlag x (s.reg x >>> 1) (lowBitFlag (s.reg x))).advance := rfl

theorem exec_shl (x y : Nibble) (s : State) : exec (.shl x y) s =
    .next (s.setRegFlag x (s.reg x <<< 1) (highBitFlag (s.reg x))).advance := rfl

/-! ## What is written -/

theorem State.reg_setReg_same (s : State) (x : Nibble) (b : Byte) : (s.setReg x b).reg x = b := by
  rw [State.reg_setReg, if_pos rfl]

/-- An instruction without a flag leaves its result in `V[x]`, advances `PC` and changes nothing beside (R14). -/
theorem writesReg_of_exec_eq {i : Instr} {x : Nibble} {b : Byte} {s : State}
    (h : exec i s = .next (s.setReg x b).advance) :
    ∃ t, exec i s = .next t ∧ t.reg x = b ∧ t.pc = s.pc + 2 ∧ SameBut [.reg x, .pc] s t :=
  ⟨_, h, s.reg_setReg_same x b, rfl, execWriteReg_frame rfl⟩

/-- A flag-defining instruction leaves its result in `V[x]`, where that is not `VF`, and its flag in `VF` always
(R121); `r` and `f` are the two as numbers. -/
theorem writesRegFlag_of_exec_eq {i : Instr} {x : Nibble} {result flag : Byte} {s : State} {r f : Nat}
    (h : exec i s = .next (s.setRegFlag x result flag).advance) (hr : result.toNat = r) (hf : flag.toNat = f) :
    ∃ t, exec i s = .next t ∧ (x ≠ 0xF → (t.reg x).toNat = r) ∧ (t.reg 0xF).toNat = f ∧ t.pc = s.pc + 2 ∧
      SameBut [.reg x, .reg 0xF, .pc] s t := by
  refine ⟨_, h, fun hx => ?_, ?_, rfl, execWriteRegFlag_frame rfl⟩
  · rw [State.reg_advance, s.reg_setRegFlag_result x result flag hx, hr]
  · exact (congrArg BitVec.toNat (s.reg_setRegFlag_vf x result flag)).trans hf

/-! ## The results as numbers (R120) -/

theorem byte_sub_toNat (a b : Byte) : (a - b).toNat = (256 + a.toNat - b.toNat) % 256 := by
  rw [BitVec.toNat_sub]
  omega

theorem byte_shiftRight_one_toNat (a : Byte) : (a >>> 1).toNat = a.toNat / 2 := by
  rw [BitVec.toNat_ushiftRight, Nat.shiftRight_one]

theorem byte_shiftLeft_one_toNat (a : Byte) : (a <<< 1).toNat = a.toNat * 2 % 256 := by
  rw [BitVec.toNat_shiftLeft, Nat.shiftLeft_eq, pow_one]

/-! ## The obligations -/

/-- Settles O30: the words are LD's and ADD's own; the sum of bytes wraps at 256. -/
theorem immediateLoadAndAdd : Obligations.ImmediateLoadAndAdd := by
  refine ⟨fun w => ⟨fun h => ⟨fieldX w, fieldKk w, ?_⟩, fun h => ⟨fieldX w, fieldKk w, ?_⟩⟩, fun x kk s => ⟨?_, ?_⟩⟩
  · exact decode_of_encode_eq (concat_fieldX_fieldKk_iff.2 (wordGroup_eq_of_and_F000 h))
  · exact decode_of_encode_eq (concat_fieldX_fieldKk_iff.2 (wordGroup_eq_of_and_F000 h))
  · exact writesReg_of_exec_eq (exec_ldImm x kk s)
  · obtain ⟨t, ht, sum, rest⟩ := writesReg_of_exec_eq (exec_addImm x kk s)
    exact ⟨t, ht, by rw [sum, BitVec.toNat_add], rest⟩

/-- Settles O31: a bit of the result is the operation on the two bits. -/
theorem copyAndBitwise : Obligations.CopyAndBitwise := by
  intro x y s
  refine ⟨writesReg_of_exec_eq (exec_ldReg x y s), ?_, ?_, ?_⟩
  · obtain ⟨t, ht, result, rest⟩ := writesReg_of_exec_eq (exec_orReg x y s)
    exact ⟨t, ht, fun j => by rw [result, BitVec.getLsbD_or], rest⟩
  · obtain ⟨t, ht, result, rest⟩ := writesReg_of_exec_eq (exec_andReg x y s)
    exact ⟨t, ht, fun j => by rw [result, BitVec.getLsbD_and], rest⟩
  · obtain ⟨t, ht, result, rest⟩ := writesReg_of_exec_eq (exec_xorReg x y s)
    exact ⟨t, ht, fun j => by rw [result, BitVec.getLsbD_xor], rest⟩

/-- Settles O32: the wrapped sum and the carry of the old values. -/
theorem addWithCarry : Obligations.AddWithCarry := fun x y s =>
  writesRegFlag_of_exec_eq (exec_addReg x y s) (BitVec.toNat_add _ _) (carryFlag_toNat _ _)

/-- Settles O33: SUBN is SUB's difference and flag with the operands exchanged. -/
theorem subtractWithFlag : Obligations.SubtractWithFlag := fun x y s =>
  ⟨writesRegFlag_of_exec_eq (exec_sub x y s) (byte_sub_toNat _ _) (greaterFlag_toNat _ _),
    writesRegFlag_of_exec_eq (exec_subn x y s) (byte_sub_toNat _ _) (greaterFlag_toNat _ _)⟩

/-- Settles O34: neither answer names `y`; the flags are the remainder by 2 and the quotient by 128. -/
theorem shiftsByOne : Obligations.ShiftsByOne := fun x y s =>
  ⟨writesRegFlag_of_exec_eq (exec_shr x y s) (byte_shiftRight_one_toNat _) (lowBitFlag_toNat _),
    writesRegFlag_of_exec_eq (exec_shl x y s) (byte_shiftLeft_one_toNat _) (highBitFlag_toNat _)⟩

/-- Settles O35: the result is a conjunction with kk, whatever the step's free byte is. -/
theorem randomIsMasked : Obligations.RandomIsMasked := by
  intro x kk s
  obtain ⟨t, ht, masked, rest⟩ := writesReg_of_exec_eq (exec_rnd x kk s)
  refine ⟨t, ht, fun j => ?_, fun hkk => ?_, rest⟩
  · rw [masked, BitVec.getLsbD_and]
  · rw [masked, hkk]
    exact BitVec.and_zero

end Sys2Proof.Machine
end

