-- ==== Sys2Proof/Proofs/IndexMemory.lean ====
section
/-! Index register and memory (44_index_memory.md R140 to R146): the three instructions that set `I`, the two stores
and the load where their block exists (outside memory they only report: Proofs/Memory.lean), and a store and a load
together. -/

namespace Sys2Proof.Machine

/-! ## What each instruction answers -/

theorem exec_ldI (nnn : Addr) (s : State) : exec (.ldI nnn) s = .next (s.setI (zext16 nnn)).advance := rfl

theorem exec_addI (x : Nibble) (s : State) : exec (.addI x) s = .next (s.setI (s.i + zext16 (s.reg x))).advance := rfl

theorem exec_ldF (x : Nibble) (s : State) : exec (.ldF x) s = .next (s.setI (glyphAddress (s.reg x))).advance := rfl

section Blocks
variable {x : Nibble} {s : State}

/-- LD B, Vx where its three bytes exist (R143). -/
theorem exec_ldB_of_blockExists (h : BlockExists s 3) :
    exec (.ldB x) s = .next (s.setMem (s.mem.writeBytes s.i.toNat (decimalDigits (s.reg x)))).advance := by
  have hw := State.writeBlock_of_blockExists (bs := decimalDigits (s.reg x)) h
  rw [exec, execLdB, hw]
  rfl

/-- LD [I], Vx where its block exists (R144). -/
theorem exec_storeRegs_of_blockExists (h : BlockExists s (x.toNat + 1)) : exec (.storeRegs x) s =
    .next ((s.setMem (s.mem.writeBytes s.i.toNat (s.regsUpTo x))).setI (indexAfterBlock s x)).advance := by
  have hw := State.writeBlock_of_blockExists (bs := s.regsUpTo x) (by rwa [State.length_regsUpTo])
  rw [exec, execStoreRegs, hw]
  rfl

/-- LD Vx, [I] where its block exists (R145). -/
theorem exec_loadRegs_of_blockExists (h : BlockExists s (x.toNat + 1)) : exec (.loadRegs x) s =
    .next ((s.setRegs ((List.range (x.toNat + 1)).map fun k => s.byte (s.i.toNat + k))).setI
      (indexAfterBlock s x)).advance := by
  have hr := State.readBlock_eq_some s (indexBase s) (regCount x) h
  rw [exec, execLoadRegs, hr]
  rfl

end Blocks

/-! ## What is written -/

/-- An instruction that only sets `I` leaves its value there, advances `PC` and changes nothing beside, `VF` included
(R140 to R142); `n` is the value as a number. -/
theorem setsIndex_of_exec_eq {i : Instr} {w : Word} {s : State} {n : Nat}
    (h : exec i s = .next (s.setI w).advance) (hn : w.toNat = n) :
    ∃ t, exec i s = .next t ∧ t.i.toNat = n ∧ t.pc = s.pc + 2 ∧ SameBut [.index, .pc] s t := by
  refine ⟨_, h, hn, rfl, ?_⟩
  constructor <;> simp

/-- Where no output has changed, as when nothing is reported, the frame holds without them. -/
theorem SameBut.without_outputs (ps : List Part) {qs : List Part} {s t : State}
    (h : SameBut (ps ++ .outputs :: qs) s t) (out : t.out = s.out) : SameBut (ps ++ qs) s t := by
  have unlisted {p : Part} (hne : p ≠ .outputs) (hp : p ∉ ps ++ qs) : p ∉ ps ++ .outputs :: qs := by
    simpa [hne] using hp
  exact {
    regs := fun x hx => h.regs x (unlisted nofun hx)
    index := fun hx => h.index (unlisted nofun hx)
    pc := fun hx => h.pc (unlisted nofun hx)
    slots := fun k hk => h.slots k (unlisted nofun hk)
    sp := fun hx => h.sp (unlisted nofun hx)
    dt := fun hx => h.dt (unlisted nofun hx)
    st := fun hx => h.st (unlisted nofun hx)
    keys := fun k hk => h.keys k (unlisted nofun hk)
    display := fun hx => h.display (unlisted nofun hx)
    dirty := fun hx => h.dirty (unlisted nofun hx)
    gate := fun hx => h.gate (unlisted nofun hx)
    bytes := fun a ha => h.bytes a (unlisted nofun ha)
    draws := fun hx => h.draws (unlisted nofun hx)
    schedule := fun hx => h.schedule (unlisted nofun hx)
    outputs := fun _ => out }

/-- A byte of a block that has been written is the one written (R46). -/
theorem State.byte_of_mem_eq {s t : State} {a k : Nat} {bs : List Byte} (hm : t.mem = s.mem.writeBytes a bs)
    (hk : k < bs.length) : t.byte (a + k) = bs[k] := by
  rw [State.byte, hm, Memory.read_writeBytes_inside]

/-! ## The values as numbers -/

/-- The address of a glyph fits in 16 bits for every byte, so it is not masked (R142). -/
theorem glyphAddress_toNat (b : Byte) : (glyphAddress b).toNat = b.toNat * 5 := by
  rw [glyphAddress, Config.glyphBytes, BitVec.toNat_ofNat]
  omega

/-- `I` after a block that exists: at most 4096, so it does not wrap at 16 bits (R144, R145). -/
theorem indexAfterBlock_toNat {x : Nibble} {s : State} (h : BlockExists s (x.toNat + 1)) :
    (indexAfterBlock s x).toNat = s.i.toNat + x.toNat + 1 := by
  rw [BlockExists] at h
  rw [indexAfterBlock, regCount, BitVec.toNat_add, BitVec.toNat_ofNat]
  omega

/-! ## The index register -/

/-- Settles O36: the word is LD's own, and 12 bits fit in `I`. -/
theorem loadIndex : Obligations.LoadIndex := by
  refine ⟨fun w h => ⟨fieldNnn w, ?_⟩, fun nnn s => ?_⟩
  · exact decode_of_encode_eq (concat_fieldNnn_iff.2 (wordGroup_eq_of_and_F000 h))
  · exact setsIndex_of_exec_eq (exec_ldI nnn s) (zext16_toNat nnn (by decide))

/-- Settles O37: the sum is taken in 16 bits, the product is below 65536. -/
theorem indexArithmetic : Obligations.IndexArithmetic := by
  intro x s
  have sum : (s.i + zext16 (s.reg x)).toNat = (s.i.toNat + (s.reg x).toNat) % 65536 := by
    rw [BitVec.toNat_add, zext16_toNat (s.reg x) (by decide)]
  exact ⟨setsIndex_of_exec_eq (exec_addI x s) sum, setsIndex_of_exec_eq (exec_ldF x s) (glyphAddress_toNat _)⟩

/-! ## The stores and the load -/

/-- Settles O38: the block written is the three digits. -/
theorem storeDecimalDigits : Obligations.StoreDecimalDigits := by
  intro x s hb
  have ran := exec_ldB_of_blockExists (x := x) hb
  have stored := exec_ldB_mem hb ran
  obtain ⟨d, u, v, hd, hu, hv, digits⟩ := decimalDigits_eq (s.reg x)
  rw [digits] at ran stored
  refine ⟨_, ran, ?_, ?_, ?_, rfl, SameBut.without_outputs [.pc] (exec_frame _ _ _ ran) rfl⟩
  · exact (congrArg BitVec.toNat (State.byte_of_mem_eq (k := 0) stored (by simp))).trans hd
  · exact (congrArg BitVec.toNat (State.byte_of_mem_eq (k := 1) stored (by simp))).trans hu
  · exact (congrArg BitVec.toNat (State.byte_of_mem_eq (k := 2) stored (by simp))).trans hv

/-- Settles O39: the block written is `V0` to `Vx` in order. -/
theorem storeRegisters : Obligations.StoreRegisters := by
  intro x s hb
  have ran := exec_storeRegs_of_blockExists hb
  refine ⟨_, ran, fun k hk => ?_, indexAfterBlock_toNat hb, rfl,
    SameBut.without_outputs [.index, .pc] (exec_frame _ _ _ ran) rfl⟩
  have inside : k.toNat < (s.regsUpTo x).length := by rw [State.length_regsUpTo]; omega
  exact (State.byte_of_mem_eq (exec_storeRegs_mem hb ran) inside).trans (s.getElem_regsUpTo x k hk)

/-- Settles O40: register `k` takes the `k`-th byte of the block read, `VF` as any other. -/
theorem loadRegisters : Obligations.LoadRegisters := by
  intro x s hb
  have ran := exec_loadRegs_of_blockExists hb
  refine ⟨_, ran, fun k hk => ?_, indexAfterBlock_toNat hb, rfl,
    SameBut.without_outputs [.index, .pc] (exec_frame _ _ _ ran) rfl⟩
  have inside : k.toNat < x.toNat + 1 := by omega
  simp [inside]

/-- Settles O41: the load reads at the same addresses what the store left there (O39, O40). -/
theorem storeLoadRoundTrip : Obligations.StoreLoadRoundTrip := by
  intro x s t u hb hstore hmem hi
  obtain ⟨t', hstore', stored, advanced, -⟩ := storeRegisters x s hb
  obtain rfl : t = t' := by simpa [hstore] using hstore'
  obtain ⟨z, hload, loaded, advanced', -⟩ := loadRegisters x u (by rwa [BlockExists, hi])
  refine ⟨z, hload, fun k hk => ?_, BitVec.eq_of_toNat_eq (by rw [advanced', advanced, hi])⟩
  calc z.reg k = u.byte (u.i.toNat + k.toNat) := loaded k hk
    _ = t.byte (s.i.toNat + k.toNat) := by rw [hi, hmem]
    _ = s.reg k := stored k hk

end Sys2Proof.Machine
end

