-- ==== Sys2Proof/Proofs/Display.lean ====
section
/-! Display (45_display.md R150 to R154): CLS, DRW where the sprite's bytes exist (outside memory it only reports:
Proofs/Memory.lean), and one sprite drawn twice. The blitter's list of pixels and the rule's set sprite bits are
brought together once, in `mem_drawnPixels`. -/

namespace Sys2Proof.Machine

/-! ## CLS -/

theorem exec_cls (s : State) : exec .cls s = .next ((s.setFb Framebuffer.blank).setDirty true).advance := rfl

theorem Framebuffer.blank_pixel (row : Fin 32) (col : Fin 64) : Framebuffer.blank[row][col] = false := by
  simp [Framebuffer.blank]

/-- Settles O43: the display becomes the blank one. -/
theorem clearDisplay : Obligations.ClearDisplay := by
  intro s
  have ran := exec_cls s
  exact ⟨_, ran, Framebuffer.blank_pixel, rfl, rfl, exec_frame _ _ _ ran⟩

/-! ## The pixels of a sprite -/

section Sprite
variable {x y n : Nibble} {s t u : State}

/-- The pixels that DRW toggles: those of the `n` bytes from `I` on, at the coordinates `V[x]` and `V[y]` (R151). -/
def drawnPixels (s : State) (x y n : Nibble) : List (Fin 32 × Fin 64) :=
  spritePixels (s.reg x) (s.reg y) 0 ((List.range n.toNat).map fun k => s.byte (s.i.toNat + k))

/-- DRW toggles each pixel at most once: a sprite has at most 15 rows, fewer than the display (R153). -/
theorem drawnPixels_nodup (s : State) (x y n : Nibble) : (drawnPixels s x y n).Nodup := by
  refine spritePixels_nodup _ _ _ _ ?_
  rw [List.length_map, List.length_range]
  omega

/-- The wrapped position of a sprite bit is the rule's position (R153). -/
theorem eq_wrapRow_wrapCol_iff {vx vy : Byte} {r c : Nat} {row : Fin 32} {col : Fin 64} :
    (row, col) = (wrapRow vy r, wrapCol vx c) ↔ (vx.toNat + c) % 64 = col.val ∧ (vy.toNat + r) % 32 = row.val := by
  simp only [Prod.mk.injEq, Fin.ext_iff, wrapRow, wrapCol, Fin.val_ofNat]
  omega

/-- The pixels that DRW toggles are those on which a set sprite bit falls. -/
theorem mem_drawnPixels {row : Fin 32} {col : Fin 64} :
    (row, col) ∈ drawnPixels s x y n ↔ spriteBitAt s x y n row col := by
  simp only [drawnPixels, mem_spritePixels, List.length_map, List.length_range, List.getElem_map, List.getElem_range,
    Nat.zero_add, eq_wrapRow_wrapCol_iff, spriteBitAt, exists_prop, exists_and_left]

/-- Which sprite bit falls on a pixel depends only on the coordinates, `I` and memory. -/
theorem spriteBitAt_congr (hx : u.reg x = s.reg x) (hy : u.reg y = s.reg y) (hi : u.i = s.i)
    (hmem : ∀ a, u.byte a = s.byte a) (row : Fin 32) (col : Fin 64) :
    spriteBitAt u x y n row col ↔ spriteBitAt s x y n row col := by
  simp only [spriteBitAt, hx, hy, hi, hmem]

/-! ## DRW -/

/-- DRW where the sprite's bytes exist (R151). -/
theorem exec_drw_of_blockExists (h : BlockExists s n.toNat) : exec (.drw x y n) s =
    .next (((s.setFb (blit s.fb (drawnPixels s x y n)).1).setReg vf
      (flagByte (blit s.fb (drawnPixels s x y n)).2)).setDirty true).advance := by
  have hr := State.readBlock_eq_some s (indexBase s) n.toNat h
  rw [exec, execDrw, hr]
  rfl

/-- A pixel after DRW: flipped where a set sprite bit falls on it, else as it was (R151). -/
theorem exec_drw_pixel (h : BlockExists s n.toNat) (ran : exec (.drw x y n) s = .next t) (row : Fin 32)
    (col : Fin 64) : (spriteBitAt s x y n row col → t.pixel row col = !(s.pixel row col)) ∧
      (¬ spriteBitAt s x y n row col → t.pixel row col = s.pixel row col) := by
  obtain rfl := Host.Outcome.next.inj ((exec_drw_of_blockExists h).symm.trans ran)
  have toggled := blit_pixel s.fb (drawnPixels s x y n) (drawnPixels_nodup s x y n) row col
  rw [← mem_drawnPixels]
  exact ⟨fun on => toggled.trans (if_pos on), fun off => toggled.trans (if_neg off)⟩

theorem flagByte_eq_one_iff (b : Bool) : flagByte b = 1 ↔ b = true := by cases b <;> decide

/-- `VF` after DRW is 0 or 1, and 1 exactly if a set sprite bit met a pixel that was on (R152). -/
theorem exec_drw_vf (h : BlockExists s n.toNat) (ran : exec (.drw x y n) s = .next t) :
    (t.reg vf = 0 ∨ t.reg vf = 1) ∧
      (t.reg vf = 1 ↔ ∃ row col, spriteBitAt s x y n row col ∧ s.pixel row col = true) := by
  obtain rfl := Host.Outcome.next.inj ((exec_drw_of_blockExists h).symm.trans ran)
  simp only [State.reg_advance, State.reg_setDirty, State.reg_setReg_same]
  refine ⟨flagByte_zero_or_one _, ?_⟩
  rw [flagByte_eq_one_iff, blit_collision _ _ (drawnPixels_nodup s x y n), Prod.exists]
  simp only [mem_drawnPixels, State.pixel]

end Sprite

/-- Settles O44: the blit toggles the pixels of the set sprite bits, each once. -/
theorem drawSprite : Obligations.DrawSprite := by
  intro x y n s hb
  have ran := exec_drw_of_blockExists (x := x) (y := y) hb
  obtain ⟨range, collision⟩ := exec_drw_vf hb ran
  refine ⟨_, ran, fun row col => (exec_drw_pixel hb ran row col).1, fun row col => (exec_drw_pixel hb ran row col).2,
    collision.2, fun off => range.resolve_right fun one => ?_, rfl, rfl,
    SameBut.without_outputs [.display, .dirty, .reg vf, .pc] (exec_frame _ _ _ ran) rfl⟩
  obtain ⟨row, col, bit, on⟩ := collision.1 one
  exact Bool.false_ne_true ((off row col bit).symm.trans on)

/-- Settles O45: the second draw finds the same set sprite bits, so it flips back what the first flipped, and it meets
a pixel that is on just where the first met one that was off. -/
theorem drawTwiceRestores : Obligations.DrawTwiceRestores := by
  intro x y n s t u hb first hpix hx hy hi hmem
  have hbu : BlockExists u n.toNat := by rwa [BlockExists, hi]
  have second := exec_drw_of_blockExists (x := x) (y := y) hbu
  have sameBits := spriteBitAt_congr (n := n) hx hy hi hmem
  refine ⟨_, second, fun row col => ?_, (exec_drw_vf hbu second).2.trans ?_⟩
  · obtain ⟨flipped, kept⟩ := exec_drw_pixel hb first row col
    obtain ⟨flipped', kept'⟩ := exec_drw_pixel hbu second row col
    rw [sameBits] at flipped' kept'
    by_cases bit : spriteBitAt s x y n row col
    · rw [flipped' bit, hpix, flipped bit, Bool.not_not]
    · rw [kept' bit, hpix, kept bit]
  · refine exists_congr fun row => exists_congr fun col => ?_
    rw [sameBits, hpix]
    refine and_congr_right fun bit => ?_
    rw [(exec_drw_pixel hb first row col).1 bit, Bool.not_eq_true']

end Sys2Proof.Machine
end

