-- ==== Sys2Proof/Proofs/TimersKeys.lean ====
section
/-! Timers and keys (46_timers_keys.md R160 to R163): the three timer moves, the step that sets a timer and counts it
down at once, and the key wait. -/

namespace Sys2Proof.Machine

/-! ## What each instruction answers -/

theorem exec_ldVxDt (x : Nibble) (s : State) : exec (.ldVxDt x) s = .next (s.setReg x s.dt).advance := rfl

theorem exec_ldDtVx (x : Nibble) (s : State) : exec (.ldDtVx x) s = .next (s.setDt (s.reg x)).advance := rfl

theorem exec_ldStVx (x : Nibble) (s : State) : exec (.ldStVx x) s = .next (s.setSt (s.reg x)).advance := rfl

/-- LD Vx, K with `k` the least pressed key (R161). -/
theorem exec_ldVxK_of_leastKey_eq_some {x k : Nibble} {s : State} (h : leastKey s = some k) :
    exec (.ldVxK x) s = .next (s.setReg x (k.setWidth 8)).advance := by
  rw [exec, execLdVxK, h]
  rfl

/-- LD Vx, K with no key pressed is a poll (R161). -/
theorem exec_ldVxK_of_leastKey_eq_none {x : Nibble} {s : State} (h : leastKey s = none) :
    exec (.ldVxK x) s = .next s := by
  rw [exec, execLdVxK, h]
  rfl

/-! ## The instruction phase -/

/-- Settles O46: each of the three is a write of one part and an advance. -/
theorem timerMoves : Obligations.TimerMoves := by
  intro x s
  exact ⟨writesReg_of_exec_eq (exec_ldVxDt x s),
    ⟨_, exec_ldDtVx x s, rfl, rfl, exec_frame _ _ _ (exec_ldDtVx x s)⟩,
    ⟨_, exec_ldStVx x s, rfl, rfl, exec_frame _ _ _ (exec_ldStVx x s)⟩⟩

/-- Settles O47: the least pressed key is the one that the search from key 0 on answers, and its number fits in a
byte. -/
theorem keyWaitTakesLeastKey : Obligations.KeyWaitTakesLeastKey := by
  intro x k s pressed lower
  have ran := exec_ldVxK_of_leastKey_eq_some (x := x) (leastKey_eq_some s k pressed lower)
  obtain ⟨t, ht, value, rest⟩ := writesReg_of_exec_eq ran
  exact ⟨t, ht, by rw [value, BitVec.toNat_setWidth_of_le (by decide)], rest⟩

/-- Settles O48: the search finds no key. -/
theorem keyWaitPolls : Obligations.KeyWaitPolls := fun _ s released =>
  exec_ldVxK_of_leastKey_eq_none (leastKey_eq_none s released)

/-! ## The step that sets a timer -/

/-- A step ends the state that its instruction leaves (R82). -/
theorem step_of_exec {s u z : State} {w : Word} {i : Instr} (hu : driverTurn s = .next u) (hg : u.gateOpen = true)
    (hf : fetch u = some w) (hd : decode w = .instr i) (hx : exec i (beginStep u) = .next z) :
    step s = .next (endStep (some w) z) := by
  rw [step_of_instr hu hg hf hd, hx, finish]

/-- A timer still runs after its countdown exactly if it held at least 2 (R87, R88). -/
theorem countDown_bne_zero (b : Byte) : (countDown b != 0) = decide (2 ≤ b.toNat) := by
  have counted := countDown_toNat b
  rw [Bool.eq_iff_iff, bne_iff_ne, decide_eq_true_iff]
  bv_omega

/-- Settles O13: the instruction phase sets the timer, and the timer phase of the same step counts down what it
holds. -/
theorem setTimerCountsDownAtOnce : Obligations.SetTimerCountsDownAtOnce := by
  intro s u w x hu hg hf
  refine ⟨fun hd => ?_, fun hd => ?_⟩
  · exact ⟨_, step_of_exec hu hg hf hd (exec_ldDtVx x _), countDown_toNat (u.reg x), countDown_toNat u.st, rfl⟩
  · have beep := endStep_result (some w) ((beginStep u).setSt (u.reg x)).advance
    rw [endStep_st, State.advance_st, State.setSt_st, countDown_bne_zero] at beep
    exact ⟨_, step_of_exec hu hg hf hd (exec_ldStVx x _), countDown_toNat (u.reg x), countDown_toNat u.dt, rfl, beep⟩

end Sys2Proof.Machine
end

