-- ==== Sys2Proof/Proofs/Exceptions.lean ====
section
/-! The reports and the driver's operations (60_exceptions.md R170 to R197): which instruction raises which report and
with what value, the stack limits, the permanent mark, `loadProgram` and the driver's turn. (That a report changes
nothing else, and the driver's other moves: Proofs/StepCycle.lean.) -/

namespace Sys2Proof.Machine

/-! ## Which instruction raises which report -/

theorem eq_of_raise_report {s : State} {r r' : Report} (h : (s.raise r').out.report = some r) : r = r' :=
  (Option.some.inj h).symm

/-- Settles O18: where no report stood before, the one that stands after is the one the instruction raised. -/
theorem reportsByInstruction : Obligations.ReportsByInstruction := by
  intro i s t r quiet h reports
  rcases exec_reports i s t h with ⟨rfl, hi, hsp⟩ | ⟨rfl, hi, hsp⟩ | ⟨rfl, block⟩ | ⟨x, rfl, hi, hx⟩ | ho
  · exact Or.inl ⟨hi, eq_of_raise_report reports, by simp [hsp]⟩
  · exact Or.inr (Or.inl ⟨hi, eq_of_raise_report reports, by simp [hsp]⟩)
  · have value : r = .memoryBounds s.i := eq_of_raise_report reports
    rcases block with drw | ldB | regs
    · exact Or.inr (Or.inr (Or.inl ⟨drw, value⟩))
    · exact Or.inr (Or.inr (Or.inr (Or.inl ⟨ldB, value⟩)))
    · exact Or.inr (Or.inr (Or.inr (Or.inr (Or.inl ⟨regs, value⟩))))
  · exact Or.inr (Or.inr (Or.inr (Or.inr (Or.inr ⟨x, hi, eq_of_raise_report reports, hx⟩))))
  · rw [ho, quiet] at reports
    cases reports

/-! ## The stack limits -/

/-- CALL with no slot above `SP` (R102). -/
theorem exec_call_of_sp_eq {nnn : Addr} {s : State} (h : s.sp = 15) : exec (.call nnn) s = raised s .stackOverflow := by
  rw [exec, execCall, if_pos h]

/-- RET with no call to return from (R101). -/
theorem exec_ret_of_sp_eq {s : State} (h : s.sp = 0) : exec .ret s = raised s .stackUnderflow := by
  rw [exec, execRet, if_pos h]

/-- Settles O19: at its limit each of the two only raises the report. -/
theorem stackLimitsReport : Obligations.StackLimitsReport := by
  intro s
  exact ⟨fun _ full => reports_of_eq_raised (exec_call_of_sp_eq (BitVec.eq_of_toNat_eq full)),
    fun empty => reports_of_eq_raised (exec_ret_of_sp_eq (BitVec.eq_of_toNat_eq empty))⟩

/-! ## The permanent mark -/

/-- No move of the driver touches the mark, `reset()` included (R177). -/
theorem driverTurn_everReported {s u : State} (h : driverTurn s = .next u) :
    u.out.everReported = s.out.everReported :=
  driverTurn_induct (P := fun v => v.out.everReported = s.out.everReported)
    (fun op v w hv hop => (hostOp_keeps_own op v w hop).1.trans hv) (fun _ _ hv => hv) s u rfl h

/-- The start of the step takes the report back, so the phase leaves a report exactly where it has raised one, which
sets the mark (R85, R177). -/
theorem PhaseLeaves.everReported_iff {u z : State} (h : PhaseLeaves u z) :
    z.out.everReported = true ↔ u.out.everReported = true ∨ ∃ r, z.out.report = some r := by
  have raised_or_kept : (∃ r, z = (beginStep u).raise r) ∨ z.out = (beginStep u).out := by
    rcases h with raised | ⟨w, i, -, -, hx⟩
    · exact Or.inl raised
    · exact exec_raises_or_keeps_out hx
  rcases raised_or_kept with ⟨r, rfl⟩ | kept
  · simp
  · simp [kept]

/-- Settles O16: a gated step answers no report and leaves the mark, an executed one hands out the report of its
instruction phase. -/
theorem reportMarkIsPermanent : Obligations.ReportMarkIsPermanent := by
  intro s t h
  obtain ⟨u, hu, ⟨-, rfl⟩ | ⟨-, w, z, hz, rfl⟩⟩ := step_gated_or_ended h <;> rw [← driverTurn_everReported hu]
  · simp
  · simpa using hz.everReported_iff

/-! ## loadProgram -/

/-- `loadProgram` with a payload above PROG_CAP only answers CapacityError (R174, R196). -/
theorem hostLoadProgram_of_lt_length {bytes : List Byte} (s : State) (h : 3584 < bytes.length) :
    hostLoadProgram bytes s = s.setOut { s.out with loadReport := some .capacityError } :=
  if_pos h

/-- Settles O58: a payload that fits is one block write at 0x200, a longer one is only answered. -/
theorem loadProgramOperation : Obligations.LoadProgramOperation := by
  intro bytes s
  refine ⟨fun fits => ?_, fun long => ?_⟩
  · have answer : hostOp (.loadProgram bytes) s = .next (hostLoadProgram bytes s) := rfl
    have written := hostOp_loadProgram_mem fits answer
    refine ⟨_, answer, ?_, fun k hk => State.byte_of_mem_eq written hk, hostLoadProgram_frame s bytes⟩
    rw [hostLoadProgram, if_neg (by rw [Config.progCap]; omega), State.setOut_out]
  · rw [hostOp, hostLoadProgram_of_lt_length s long]
    refine ⟨_, rfl, rfl, rfl, ?_⟩
    constructor <;> simp

/-! ## The driver's turn -/

theorem hostOps_cons_of_next {op : HostOp} {s t : State} (ops : List HostOp) (h : hostOp op s = .next t) :
    hostOps (op :: ops) s = hostOps ops t := by
  rw [hostOps, h]

theorem hostOps_cons_of_refused {op : HostOp} {s : State} {r : Refusal} (ops : List HostOp)
    (h : hostOp op s = .refused r) : hostOps (op :: ops) s = .refused r := by
  rw [hostOps, h]

/-- With an entry in the schedule the turn is its moves, and the schedule moves on (log 6). -/
theorem driverTurn_of_schedule_cons {s : State} {ops : List HostOp} {rest : List (List HostOp)}
    (h : s.schedule = ops :: rest) : driverTurn s = hostOps ops (s.setSchedule rest) := by
  rw [driverTurn, dueMoves, h, List.tail_cons]

/-- With no entry in the schedule the turn is one tick (R80, log 6). -/
theorem driverTurn_of_schedule_nil {s : State} (h : s.schedule = []) : driverTurn s = .next (s.setGate true) := by
  have unmoved : s.setSchedule [] = s := by rw [State.setSchedule, ← h]
  rw [driverTurn, dueMoves, h, List.tail_nil, unmoved]
  rfl

/-- Settles O8: the turn by the schedule's two forms, the moves by the recursion of `hostOps`. -/
theorem driverTurnTakesTheSchedule : Obligations.DriverTurnTakesTheSchedule := fun _ =>
  ⟨driverTurn_of_schedule_nil, fun _ _ => driverTurn_of_schedule_cons, rfl,
    fun _ ops _ => hostOps_cons_of_next ops, fun _ ops _ => hostOps_cons_of_refused ops⟩

end Sys2Proof.Machine
end

