-- ==== Sys2Proof/Proofs/Reset.lean ====
section
/-! Power-on and `reset()` (70_reset_and_hazards.md R210 to R212), and the key index that names no key (42_skip.md R114,
R115, where O29 in Proofs/Skip.lean has the indices that do). `reset()` writes the constants that power-on starts from,
so what the fields hold after power-on is read off what they hold after `reset()`. -/

namespace Sys2Proof.Machine

/-! ## Power-on -/

/-- After power-on `reset()` only sets `dirty`, which R210 and R211 give different values (90_conflicts.md C5). -/
theorem hostReset_reset : hostReset State.reset = State.reset.setDirty true := rfl

@[simp] theorem State.reg_reset (x : Nibble) : State.reset.reg x = 0 := by
  rw [← State.reg_setDirty State.reset true, ← hostReset_reset, reg_hostReset]

@[simp] theorem State.slot_reset (k : Nibble) : State.reset.slot k = 0 := by
  rw [← State.slot_setDirty State.reset true, ← hostReset_reset, slot_hostReset]

@[simp] theorem State.key_reset (k : Nibble) : State.reset.key k = false := by
  rw [← State.key_setDirty State.reset true, ← hostReset_reset, key_hostReset]

@[simp] theorem State.pixel_reset (row : Fin 32) (col : Fin 64) : State.reset.pixel row col = false := by
  rw [← State.pixel_setDirty State.reset true, ← hostReset_reset, pixel_hostReset]

/-- Nothing is listed in memory after power-on (log 23). -/
theorem State.byte_reset (a : Nat) : State.reset.byte a = Memory.unlisted a := Memory.read_nil a

theorem font_length : Config.font.length = 0x50 := rfl

/-- Below 0x50 an unlisted address reads as the font's byte (R33). -/
theorem font_getElem? {a : Nat} (h : a < 0x50) : Config.font[a]? = some (Memory.unlisted a) := by
  have inFont : a < Config.font.length := h
  rw [Memory.unlisted, List.getD_eq_getElem _ _ inFont, List.getElem?_eq_getElem inFont]

/-- From 0x50 on an unlisted address reads as 0 (R33). -/
theorem Memory.unlisted_of_le {a : Nat} (h : 0x50 ≤ a) : Memory.unlisted a = 0 :=
  List.getD_eq_default _ _ h

/-- Settles O55: `PC` is 0x200, every slot is 0 and no byte is listed. -/
theorem invariantsAtReset : Obligations.InvariantsAtReset := by
  have slotBound (k : Nibble) : (State.reset.slot k).toNat ≤ 0x1000 := by simp
  exact ⟨⟨by decide, slotBound⟩, State.slot_reset 0, Memory.wf_nil, rfl⟩

/-- Settles O56: memory by its unlisted bytes, the vectors by the lemmas above, every other field by its value. -/
theorem powerOnState : Obligations.PowerOnState := by
  have font (a : Nat) (h : a < 0x50) : Config.font[a]? = some (State.reset.byte a) := by
    rw [State.byte_reset, font_getElem? h]
  have zero (a : Nat) (h : 0x50 ≤ a) : State.reset.byte a = 0 := by
    rw [State.byte_reset, Memory.unlisted_of_le h]
  exact ⟨font, font_length, zero, State.reg_reset, rfl, rfl, State.slot_reset, rfl, rfl, rfl, State.key_reset,
    State.pixel_reset, rfl, rfl⟩

/-! ## `reset()` -/

theorem hostOp_reset (s : State) : hostOp .reset s = .next (hostReset s) := rfl

/-- `reset()` writes constants only, so a second one changes nothing (R212). -/
theorem hostReset_idem (s : State) : hostReset (hostReset s) = hostReset s := rfl

/-- Settles O57: the constants are the fields of `hostReset`, whatever the state before. -/
theorem resetOperation : Obligations.ResetOperation := by
  intro s
  refine ⟨hostReset s, hostOp_reset s, hostReset_pc s, rfl, rfl, rfl, rfl, reg_hostReset s, key_hostReset s,
    slot_hostReset s, pixel_hostReset s, rfl, rfl, byte_hostReset s, hostReset_out s, ?_⟩
  rw [hostOp_reset, hostReset_idem]

/-! ## A key index above 15 -/

/-- Where `V[x]` names no key, a skip on a key only raises the report (R114, R115, D11). -/
theorem skipOnKey_of_reg_gt {x : Nibble} {s : State} (wanted : Bool) (h : 15 < (s.reg x).toNat) :
    skipOnKey x wanted s = raised s (.keyIndexRange (s.reg x)) := by
  rw [skipOnKey, keyOperand_eq_none s x h]

/-- Settles O21: SKP and SKNP are the same skip for the two positions of the key, and neither looks at one. -/
theorem keyIndexReport : Obligations.KeyIndexReport := fun _ _ above =>
  ⟨reports_of_eq_raised (skipOnKey_of_reg_gt true above), reports_of_eq_raised (skipOnKey_of_reg_gt false above)⟩

end Sys2Proof.Machine
end
